-- ==== Sys2Proof/Word.lean ====
section
/-! DEFINITION. The words of CORE: bytes, cell addresses and register indices. -/

namespace Sys2Proof

/-- The contents of a register or of a memory cell: an unsigned 8-bit value (R11, R17, R34). -/
abbrev Byte := BitVec 8

/-- The address of one of the 256 memory cells (R34, R44). -/
abbrev Addr := BitVec 8

/-- The index of one of the eight registers (R17). -/
abbrev RegIx := Fin 8

end Sys2Proof
end

