-- ==== Sys2Proof/Config.lean ====
section
/-! DEFINITION. The parameters of CORE (R9): the fixed sizes, and the shape of the parameters that a model takes as arguments. Their default values stand where they are used: `OPCODE` in Decode.lean, `resetParams` in Machine/Reset.lean. -/

namespace Sys2Proof

/-- `MEM_SIZE` (R9): cells 0 to 255. -/
abbrev memSize : Nat := 256

/-- `SP_INDEX` (R9, R20): the stack pointer is register 7, no separate register (spec decision D3, log 9). -/
abbrev spIx : RegIx := 7

/-- The parameter `OPCODE` (R9): the opcode byte of each of the 13 instructions. -/
structure Opcodes where
  hlt : Byte
  ldi : Byte
  prn : Byte
  add : Byte
  mul : Byte
  cmp : Byte
  jmp : Byte
  jeq : Byte
  jne : Byte
  push : Byte
  pop : Byte
  call : Byte
  ret : Byte
  deriving DecidableEq, Repr

/-- The 13 opcode bytes, in the order of R2. -/
def Opcodes.all (op : Opcodes) : List Byte :=
  [op.hlt, op.ldi, op.prn, op.add, op.mul, op.cmp, op.jmp, op.jeq, op.jne, op.push, op.pop,
    op.call, op.ret]

/-- An opcode map that tells its instructions apart (R69: "The values are pairwise distinct"). -/
abbrev Opcodes.Distinct (op : Opcodes) : Prop := op.all.Nodup

/-- The parameters `REG_INIT`, `SP_INIT`, `MEM_INIT` (R9) and the flags' reset values (U3 of
93_implementation_defined.md). -/
structure ResetParams where
  regInit : Byte
  spInit : Byte
  memInit : Byte
  eInit : Bool
  gInit : Bool
  lInit : Bool
  deriving DecidableEq, Repr

end Sys2Proof
end

