-- ==== Sys2Proof/Machine/Memory.lean ====
section
/-! DEFINITION. The memory array (R34, R44): 256 one-byte cells, held as the list of the cells that differ from what an unlisted cell reads as, addresses strictly rising. -/

namespace Sys2Proof.Machine

/-- Memory as data: (address, byte) pairs in the canonical form `Memory.wf`. -/
abbrev Memory := List Host.Cell

/-- What an unlisted cell reads as: `MEM_INIT` (R42, R56; the spec's decision D6, log 7). -/
def Memory.unlisted : Byte := 0x00

/-- The canonical form: addresses strictly rising and below 256, and no cell that an unlisted one would
read the same as. Two memories in this form that read alike are equal. -/
abbrev Memory.wf (m : Memory) : Prop :=
  m.Pairwise (fun c d => c.1 < d.1) ∧ ∀ c ∈ m, c.1 < memSize ∧ c.2 ≠ Memory.unlisted

/-- The byte listed for an address, or the unlisted byte. -/
def Memory.lookup : Memory → Nat → Byte
  | [], _ => Memory.unlisted
  | (k, v) :: rest, a => if k = a then v else Memory.lookup rest a

/-- `MemRead(a, 1)` (R13, R52). -/
def Memory.read (m : Memory) (a : Addr) : Byte := m.lookup a.toNat

/-- The list without the cell at an address. -/
def Memory.without (m : Memory) (a : Nat) : Memory := m.filter (fun c => c.1 != a)

/-- A cell put in its place by address. -/
def Memory.insert : Memory → Nat → Byte → Memory
  | [], a, v => [(a, v)]
  | (k, w) :: rest, a, v => if a < k then (a, v) :: (k, w) :: rest else (k, w) :: Memory.insert rest a v

/-- `MemWrite(a, 1, v)` (R13, R52): the one cell takes the value, kept in canonical form. -/
def Memory.write (m : Memory) (a : Addr) (v : Byte) : Memory :=
  if v = Memory.unlisted then m.without a.toNat else (m.without a.toNat).insert a.toNat v

/-- The cell at a number, where there is one: addresses run from 0 to 255 (R46). -/
def Memory.byteAt? (m : Memory) (n : Nat) : Option Byte :=
  if n < memSize then some (m.read (BitVec.ofNat 8 n)) else none

/-- At most `count` cells from `n` on, ending with cell 255: what a fetch at `n` can read. -/
def Memory.bytesFrom (m : Memory) : Nat → Nat → List Byte
  | 0, _ => []
  | count + 1, n =>
    match m.byteAt? n with
    | some b => b :: Memory.bytesFrom m count (n + 1)
    | none => []

/-- Byte `i` of the sequence into cell `n + i` (R81). -/
def Memory.writeFrom (m : Memory) : Nat → List Byte → Memory
  | _, [] => m
  | n, b :: rest => Memory.writeFrom (m.write (BitVec.ofNat 8 n) b) (n + 1) rest

/-- A memory whose every cell holds `v` (`MEM_INIT` of R9, R42). -/
def Memory.filled (v : Byte) : Memory :=
  if v = Memory.unlisted then [] else (List.range memSize).map (fun a => (a, v))

end Sys2Proof.Machine
end

