-- ==== Sys2Proof/Machine/Reset.lean ====
section
/-! DEFINITION. The default values of the reset parameters (R9, R40 to R42, R31). -/

namespace Sys2Proof.Machine

/-- `REG_INIT` 0x00 (R40, D5), `SP_INIT` 0xF4 (R41, D4), `MEM_INIT` 0x00 (R42, D6), the flags false (R31, D7).
The spec gives each as its own choice where its source is silent (log 6). -/
def resetParams : ResetParams where
  regInit := 0x00
  spInit := 0xF4
  memInit := 0x00
  eInit := false
  gInit := false
  lInit := false

end Sys2Proof.Machine
end

