-- ==== Sys2Proof/Machine/State.lean ====
section
/-! DEFINITION. The state of CORE (10_state.md), plain data, and its value after reset (R144). -/

namespace Sys2Proof.Machine

/-- The three independent flags (R27): Equal, Greater, Less. -/
structure Flags where
  e : Bool
  g : Bool
  l : Bool
  deriving DecidableEq, Repr

/-- The run status (R35). -/
inductive Status where
  /-- after reset, before `run` -/
  | ready
  /-- the fetch-decode-execute loop is executing -/
  | running
  /-- HLT has executed -/
  | halted
  /-- a fatal error has been raised -/
  | faulted
  deriving DecidableEq, Repr

/-- Halted and Faulted are final (R35, R134). -/
def Status.isFinal : Status → Bool
  | .ready => false
  | .running => false
  | .halted => true
  | .faulted => true

/-- Where an OutOfBounds fault arose (R125, R127). -/
inductive Site where
  | fetch
  | operandFetch
  | register
  | returnAddress
  deriving DecidableEq, Repr

/-- The four kinds of fault, OutOfBounds with its site (R125). -/
inductive FaultKind where
  | invalidOpcode
  | outOfBounds (site : Site)
  | stackOverflow
  | stackUnderflow
  deriving DecidableEq, Repr

/-- The fault record (R36). -/
structure FaultRecord where
  kind : FaultKind
  /-- the `pc` of the instruction that faulted -/
  pc : Nat
  /-- the opcode byte fetched there, absent when the fetch itself faulted -/
  opcode : Option Byte
  /-- the detail value R125 gives per kind -/
  detail : Nat
  deriving DecidableEq, Repr

/-- The machine's state, the table at the head of 10_state.md. -/
structure State where
  /-- the registers x[0..7]; x[7] is SP (R17, R20) -/
  x : Vector Byte 8
  /-- the program counter, an unsigned integer that never wraps (R23, R26) -/
  pc : Nat
  /-- E, G and L (R27) -/
  flags : Flags
  /-- the memory array (R34) -/
  mem : Memory
  /-- the run status (R35) -/
  status : Status
  /-- the fault record, empty but in status Faulted (R36) -/
  fault : Option FaultRecord
  /-- the bytes PRN has emitted, oldest first (R37) -/
  out : List Byte
  deriving DecidableEq, Repr

/-- The reasons a step could stop outside the machine's own state: there are none. Every fatal error of CORE
is a fault the machine itself enters and records (R131), so it is a next state with status Faulted (log 1),
and the type says that no step stops otherwise. -/
inductive Fault where
  deriving DecidableEq, Repr

/-- The reasons to refuse an instruction. -/
inductive Refusal where
  /-- Raised by nobody: every instruction of the table has its meaning. It would be safe: the machine stops. -/
  | notModelled (mnemonic : String)
  deriving DecidableEq, Repr

/-- What an instruction or a step answers. -/
abbrev Result := Host.Outcome State Fault Refusal

/-- Reset (R144) under any values of the reset parameters (R9): `pc` 0 (R39), status Ready, no fault
record and no output (R43). -/
def State.resetWith (p : ResetParams) : State where
  x := (Vector.replicate 8 p.regInit).set 7 p.spInit
  pc := 0
  flags := { e := p.eInit, g := p.gInit, l := p.lInit }
  mem := Memory.filled p.memInit
  status := .ready
  fault := none
  out := []

/-- The machine right after reset (R144). -/
def State.reset : State := State.resetWith resetParams

end Sys2Proof.Machine
end

