-- ==== Sys2Proof/Machine/Flags.lean ====
section
/-! DEFINITION. The one flag computation of CORE: the comparison that CMP captures (R105, R108). -/

namespace Sys2Proof.Machine

/-- E, G and L of two bytes in the unsigned order of 0..255 (R105, R108; the spec's decision D23, log 17). -/
def Flags.compare (u v : Byte) : Flags where
  e := decide (u.toNat = v.toNat)
  g := decide (u.toNat > v.toNat)
  l := decide (u.toNat < v.toNat)

/-- How many of the three flags are true. -/
def Flags.count (f : Flags) : Nat := f.e.toNat + f.g.toNat + f.l.toNat

end Sys2Proof.Machine
end

