-- ==== Sys2Proof/Machine/Ops.lean ====
section
/-! DEFINITION. The named operations over registers, memory, program counter and stack, and raising a fault. -/

namespace Sys2Proof.Machine

/-- `x[i]` (R12). -/
def State.reg (s : State) (i : RegIx) : Byte := s.x[i.val]

/-- `x[i] <- v` (R12). Every register is writable, none is hard-wired (R18). -/
def State.setReg (s : State) (i : RegIx) (v : Byte) : State := { s with x := s.x.set i.val v }

/-- `SP`, another name for x[7] (R12, R20). -/
def State.sp (s : State) : Byte := s.reg spIx

/-- `SP <- v` (R12, R20). -/
def State.setSP (s : State) (v : Byte) : State := s.setReg spIx v

/-- `pc <- t` (R14). -/
def State.setPc (s : State) (t : Nat) : State := { s with pc := t }

/-- `pc <- pc + w` (R25, R96). -/
def State.advance (s : State) (w : Nat) : State := s.setPc (s.pc + w)

/-- `F <- (e, g, l)` (R14, R28). -/
def State.setFlags (s : State) (f : Flags) : State := { s with flags := f }

/-- `MemRead(a, 1)` (R13). -/
def State.readByte (s : State) (a : Addr) : Byte := s.mem.read a

/-- `MemWrite(a, 1, v)` (R13). -/
def State.writeByte (s : State) (a : Addr) (v : Byte) : State := { s with mem := s.mem.write a v }

/-- `Out <- Out ++ [v]` (R14, R37). -/
def State.emit (s : State) (v : Byte) : State := { s with out := s.out ++ [v] }

/-- `status <- t` (R35). -/
def State.setStatus (s : State) (t : Status) : State := { s with status := t }

/-- The decrement of SP (R115); its callers have checked that SP is not 0 (R116). -/
def State.decSP (s : State) : State := s.setSP (s.sp - 1)

/-- The increment of SP (R115); its callers have checked that SP is not 255 (R116). -/
def State.incSP (s : State) : State := s.setSP (s.sp + 1)

/-- `MemWrite(x[7], 1, v)`: the store of PUSH and CALL, at the SP already decremented (R115). -/
def State.storeTop (s : State) (v : Byte) : State := s.writeByte s.sp v

/-- `MemRead(x[7], 1)`: the load of POP and RET (R115). -/
def State.loadTop (s : State) : Byte := s.readByte s.sp

/-- The address PUSH and CALL store to: the SP after its decrement (R115). -/
def State.pushAddr (s : State) : Addr := s.decSP.sp

/-- Raising a fault (R15, R131): status Faulted and the record filled, nothing else written, so `pc` keeps the
faulting instruction's address. The opcode is the byte at `pc`, absent where `pc` is past memory (R36);
no byte has been written since it was fetched (log 19). -/
def State.raise (s : State) (kind : FaultKind) (detail : Nat) : State :=
  { s with
    status := .faulted
    fault := some { kind, pc := s.pc, opcode := s.mem.byteAt? s.pc, detail } }

/-- An instruction that ends by raising a fault. -/
def trap (kind : FaultKind) (detail : Nat) (s : State) : Result := .next (s.raise kind detail)

/-- The numeric code of a fault kind (R125; the spec's decision D12). -/
def FaultKind.code : FaultKind → Nat
  | .invalidOpcode => 1
  | .outOfBounds _ => 2
  | .stackOverflow => 3
  | .stackUnderflow => 4

end Sys2Proof.Machine
end

