-- ==== Sys2Proof/Machine/Operands.lean ====
section
/-! DEFINITION. The register operands (R70, R95). CORE has no other operand form but the immediate, used as it stands (R71), and the cell at SP (R115, Machine/Ops.lean). -/

namespace Sys2Proof.Machine

/-- The register an operand byte names: the whole byte is the index, 0 to 7 valid (R70). -/
def regIndex? (b : Byte) : Option RegIx := if h : b.toNat < 8 then some ⟨b.toNat, h⟩ else none

/-- An instruction with the register operand Ra: an invalid index raises OutOfBounds with that index,
before anything is written (R95, R127). -/
def withReg (ra : Byte) (s : State) (run : RegIx → Result) : Result :=
  match regIndex? ra with
  | some a => run a
  | none => trap (.outOfBounds .register) ra.toNat s

/-- An instruction with the register operands Ra and Rb, Ra checked first (R95, R130). -/
def withRegs (ra rb : Byte) (s : State) (run : RegIx → RegIx → Result) : Result :=
  withReg ra s (fun a => withReg rb s (fun b => run a b))

end Sys2Proof.Machine
end

