-- ==== Sys2Proof/Machine/Alu.lean ====
section
/-! DEFINITION. ADD, MUL and CMP (42_alu.md). -/

namespace Sys2Proof.Machine

/-- An exact result kept modulo 256 (R103). -/
def wrap8 (n : Nat) : Byte := BitVec.ofNat 8 n

/-- ADD (R106): the exact sum modulo 256; no flag is written (R104). -/
def execAdd (ra rb : Byte) (s : State) : Result :=
  withRegs ra rb s (fun a b =>
    .next ((s.setReg a (wrap8 ((s.reg a).toNat + (s.reg b).toNat))).advance 3))

/-- MUL (R107): the exact product modulo 256; no flag is written (R104). -/
def execMul (ra rb : Byte) (s : State) : Result :=
  withRegs ra rb s (fun a b =>
    .next ((s.setReg a (wrap8 ((s.reg a).toNat * (s.reg b).toNat))).advance 3))

/-- CMP (R108): all three flags, no register. -/
def execCmp (ra rb : Byte) (s : State) : Result :=
  withRegs ra rb s (fun a b =>
    .next ((s.setFlags (Flags.compare (s.reg a) (s.reg b))).advance 3))

end Sys2Proof.Machine
end

