-- ==== Sys2Proof/Machine/Branch.lean ====
section
/-! DEFINITION. JMP, JEQ and JNE (43_branch.md). -/

namespace Sys2Proof.Machine

/-- The absolute target a register holds (R109). -/
def State.target (s : State) (a : RegIx) : Nat := (s.reg a).toNat

/-- A jump that is taken sets `pc` alone; one that is not advances it by 2 (R110). -/
def branch (taken : Bool) (ra : Byte) (s : State) : Result :=
  withReg ra s (fun a => .next (if taken then s.setPc (s.target a) else s.advance 2))

/-- JMP (R112). -/
def execJmp (ra : Byte) (s : State) : Result := branch true ra s

/-- JEQ (R113): taken when E is true. -/
def execJeq (ra : Byte) (s : State) : Result := branch s.flags.e ra s

/-- JNE (R114): taken when E is false. -/
def execJne (ra : Byte) (s : State) : Result := branch (!s.flags.e) ra s

end Sys2Proof.Machine
end

