-- ==== Sys2Proof/Machine/CallReturn.lean ====
section
/-! DEFINITION. CALL and RET (45_call_return.md). -/

namespace Sys2Proof.Machine

/-- The return address: the byte after the two-byte CALL (R121). -/
def State.returnAddress (s : State) : Nat := s.pc + 2

/-- `SP -= 1; Memory[SP] = PC + 2`, the first two of CALL's effects (R123). -/
def State.pushReturn (s : State) : State := s.decSP.storeTop (BitVec.ofNat 8 s.returnAddress)

/-- CALL (R123): StackOverflow is checked first, then that the return address fits a byte (R121); the target
is read after the decrement, so CALL R7 jumps to the decremented SP. -/
def execCall (ra : Byte) (s : State) : Result :=
  withReg ra s (fun a =>
    if s.sp = 0 then trap .stackOverflow s.sp.toNat s
    else if s.returnAddress > 255 then trap (.outOfBounds .returnAddress) s.returnAddress s
    else .next (s.pushReturn.setPc (s.pushReturn.target a)))

/-- RET (R124): the popped byte becomes `pc`. StackUnderflow when SP is 255. -/
def execRet (s : State) : Result :=
  if s.sp.toNat + 1 > 255 then trap .stackUnderflow s.sp.toNat s
  else .next (s.incSP.setPc s.loadTop.toNat)

end Sys2Proof.Machine
end

