-- ==== Sys2Proof/Machine/HaltLoadPrint.lean ====
section
/-! DEFINITION. HLT, LDI and PRN (41_halt_load_print.md). -/

namespace Sys2Proof.Machine

/-- HLT (R99): past itself, then status Halted. -/
def execHlt (s : State) : Result := .next ((s.advance 1).setStatus .halted)

/-- LDI (R100): the immediate as it stands (R71). -/
def execLdi (ra imm : Byte) (s : State) : Result :=
  withReg ra s (fun a => .next ((s.setReg a imm).advance 3))

/-- PRN (R101): one output event. -/
def execPrn (ra : Byte) (s : State) : Result :=
  withReg ra s (fun a => .next ((s.emit (s.reg a)).advance 2))

end Sys2Proof.Machine
end

