-- ==== Sys2Proof/Machine/Stack.lean ====
section
/-! DEFINITION. PUSH and POP (44_stack.md). -/

namespace Sys2Proof.Machine

/-- PUSH (R119): the decrement, then the store of x[Ra] read after it, so PUSH R7 stores the decremented
SP (R118). StackOverflow when SP is 0 (R116). -/
def execPush (ra : Byte) (s : State) : Result :=
  withReg ra s (fun a =>
    if s.sp = 0 then trap .stackOverflow s.sp.toNat s
    else .next ((s.decSP.storeTop (s.decSP.reg a)).advance 2))

/-- `reg[Ra] = Memory[SP]`, the first of POP's two effects (R120). -/
def State.loadInto (s : State) (a : RegIx) : State := s.setReg a s.loadTop

/-- POP (R120): the load into x[Ra], then the increment of SP as that load left it, so POP R7 ends with the
popped byte plus 1 (R118). StackUnderflow when the SP to be incremented is 255 (R116). -/
def execPop (ra : Byte) (s : State) : Result :=
  withReg ra s (fun a =>
    if (s.loadInto a).sp.toNat + 1 > 255 then trap .stackUnderflow (s.loadInto a).sp.toNat s
    else .next ((s.loadInto a).incSP.advance 2))

end Sys2Proof.Machine
end

