-- ==== Sys2Proof/Syntax.lean ====
section
/-! DEFINITION. The instructions of CORE (R2): one constructor per row of the opcode table. -/

namespace Sys2Proof

/-- An instruction with its operand bytes. A register operand is the whole operand byte, not reduced
or masked (R70): a byte of 8 to 255 is an operand of a valid instruction that raises OutOfBounds when
the instruction runs (R75, R95). -/
inductive Instr where
  /-- halt (R99) -/
  | hlt
  /-- load immediate (R100) -/
  | ldi (ra imm : Byte)
  /-- print register (R101) -/
  | prn (ra : Byte)
  /-- add (R106) -/
  | add (ra rb : Byte)
  /-- multiply (R107) -/
  | mul (ra rb : Byte)
  /-- compare (R108) -/
  | cmp (ra rb : Byte)
  /-- jump (R112) -/
  | jmp (ra : Byte)
  /-- jump if equal (R113) -/
  | jeq (ra : Byte)
  /-- jump if not equal (R114) -/
  | jne (ra : Byte)
  /-- push register (R119) -/
  | push (ra : Byte)
  /-- pop into register (R120) -/
  | pop (ra : Byte)
  /-- call subroutine (R123) -/
  | call (ra : Byte)
  /-- return from subroutine (R124) -/
  | ret
  deriving DecidableEq, Repr

end Sys2Proof
end

