-- ==== Sys2Proof/WellFormed.lean ====
section
/-! DEFINITION. Which operand bytes an instruction uses as register indices (R72), and which of them are valid (R70). -/

namespace Sys2Proof

/-- The operand bytes used as register indices, Ra before Rb (R72). -/
def Instr.regOperands : Instr → List Byte
  | .hlt => []
  | .ldi ra _ => [ra]
  | .prn ra => [ra]
  | .add ra rb => [ra, rb]
  | .mul ra rb => [ra, rb]
  | .cmp ra rb => [ra, rb]
  | .jmp ra => [ra]
  | .jeq ra => [ra]
  | .jne ra => [ra]
  | .push ra => [ra]
  | .pop ra => [ra]
  | .call ra => [ra]
  | .ret => []

/-- "Only 0 to 7 are valid" (R70). -/
def validIndex (b : Byte) : Bool := b.toNat < 8

/-- Every register operand is a valid index; an immediate has no illegal value (R75). -/
def Instr.wellFormed (i : Instr) : Bool := i.regOperands.all validIndex

/-- The first invalid register operand, Ra before Rb (R95, R130). -/
def Instr.badIndex? (i : Instr) : Option Byte := i.regOperands.find? (fun b => !validIndex b)

end Sys2Proof
end

