-- ==== Sys2Proof/Decode.lean ====
section
/-! DEFINITION. Instruction encoding (30_encoding.md): the opcode values, the decoder, total on any bytes, the encoder, the widths, the assembler spelling. -/

namespace Sys2Proof

/-- The opcode bytes of R66. They are the spec's own choice (D1: the values of LS-8, "NOT in the source"; log 5). -/
def OPCODE : Opcodes where
  hlt := 0x01
  ldi := 0x82
  prn := 0x47
  add := 0xA0
  mul := 0xA2
  cmp := 0xA7
  jmp := 0x54
  jeq := 0x55
  jne := 0x56
  push := 0x45
  pop := 0x46
  call := 0x50
  ret := 0x11

/-- Why no instruction can be read from some bytes. -/
inductive DecodeError where
  /-- There is no opcode byte (R91: the fetch is past the end of memory). -/
  | noOpcode
  /-- The opcode byte is none of the 13 values (R73, R93). -/
  | invalidOpcode (b : Byte)
  /-- The opcode `b` is valid and an operand byte its width covers is missing (R94). -/
  | truncated (b : Byte)
  deriving DecidableEq, Repr

/-- What decoding answers: the instruction and the bytes after it, or why there is none. -/
abbrev Decoded := Except DecodeError (Instr × List Byte)

/-- A format of R63, with the instruction its operand bytes make. -/
inductive Format where
  /-- F0: no operand byte -/
  | f0 (i : Instr)
  /-- F1: one operand byte -/
  | f1 (mk : Byte → Instr)
  /-- F2R and F2I: two operand bytes -/
  | f2 (mk : Byte → Byte → Instr)

/-- The width of a format in bytes (R63). -/
def Format.width : Format → Nat
  | .f0 _ => 1
  | .f1 _ => 2
  | .f2 _ => 3

/-- The operand bytes of a format, read from the bytes after the opcode `b`: those its width covers and no more (R94). -/
def Format.read (b : Byte) : Format → List Byte → Decoded
  | .f0 i, rest => .ok (i, rest)
  | .f1 mk, ra :: rest => .ok (mk ra, rest)
  | .f1 _, [] => .error (.truncated b)
  | .f2 mk, x :: y :: rest => .ok (mk x y, rest)
  | .f2 _, [_] => .error (.truncated b)
  | .f2 _, [] => .error (.truncated b)

/-- The table of R66: opcode and format of each instruction. -/
def Opcodes.rows (op : Opcodes) : List (Byte × Format) :=
  [(op.hlt, .f0 .hlt), (op.ldi, .f2 .ldi), (op.prn, .f1 .prn), (op.add, .f2 .add),
    (op.mul, .f2 .mul), (op.cmp, .f2 .cmp), (op.jmp, .f1 .jmp), (op.jeq, .f1 .jeq),
    (op.jne, .f1 .jne), (op.push, .f1 .push), (op.pop, .f1 .pop), (op.call, .f1 .call),
    (op.ret, .f0 .ret)]

/-- The format of an opcode byte, by whole-byte match (R67); an invalid opcode has none. -/
def formatIn : List (Byte × Format) → Byte → Option Format
  | [], _ => none
  | (c, f) :: rows, b => if b = c then some f else formatIn rows b

/-- Decoding by the opcode byte (R67, R93), under any opcode map. Operand bytes are read only after the opcode is
known to be valid (R93). -/
def decodeWith (op : Opcodes) : List Byte → Decoded
  | [] => .error .noOpcode
  | b :: rest =>
    match formatIn op.rows b with
    | some f => f.read b rest
    | none => .error (.invalidOpcode b)

/-- Decoding under the opcode values of R66. -/
def decode (bytes : List Byte) : Decoded := decodeWith OPCODE bytes

/-- The opcode byte of an instruction under an opcode map. -/
def Instr.opcodeWith (op : Opcodes) : Instr → Byte
  | .hlt => op.hlt
  | .ldi _ _ => op.ldi
  | .prn _ => op.prn
  | .add _ _ => op.add
  | .mul _ _ => op.mul
  | .cmp _ _ => op.cmp
  | .jmp _ => op.jmp
  | .jeq _ => op.jeq
  | .jne _ => op.jne
  | .push _ => op.push
  | .pop _ => op.pop
  | .call _ => op.call
  | .ret => op.ret

/-- The operand bytes, in the order they stand at pc+1 and pc+2 (R47, R63). -/
def Instr.operandBytes : Instr → List Byte
  | .hlt => []
  | .ldi ra imm => [ra, imm]
  | .prn ra => [ra]
  | .add ra rb => [ra, rb]
  | .mul ra rb => [ra, rb]
  | .cmp ra rb => [ra, rb]
  | .jmp ra => [ra]
  | .jeq ra => [ra]
  | .jne ra => [ra]
  | .push ra => [ra]
  | .pop ra => [ra]
  | .call ra => [ra]
  | .ret => []

/-- The bytes of an instruction: opcode, then operands (R62). -/
def encodeWith (op : Opcodes) (i : Instr) : List Byte := i.opcodeWith op :: i.operandBytes

/-- The bytes of an instruction under the opcode values of R66. -/
def encode (i : Instr) : List Byte := encodeWith OPCODE i

/-- The width of an instruction in bytes, the list of R64. -/
def Instr.width : Instr → Nat
  | .hlt => 1
  | .ldi _ _ => 3
  | .prn _ => 2
  | .add _ _ => 3
  | .mul _ _ => 3
  | .cmp _ _ => 3
  | .jmp _ => 2
  | .jeq _ => 2
  | .jne _ => 2
  | .push _ => 2
  | .pop _ => 2
  | .call _ => 2
  | .ret => 1

/-- The width as a function of the opcode byte alone (R64); an invalid opcode has none. -/
def widthOf? (op : Opcodes) (b : Byte) : Option Nat := (formatIn op.rows b).map Format.width

/-- The operand byte of a register: "the byte 0b00000nnn" (R70). -/
def regByte (r : RegIx) : Byte := BitVec.ofNat 8 r.val

/-- The three bytes of an opcode-table word: bit 0 of `w` is the least significant bit of the first
byte, and every bit from `nbits` up is 0. -/
def tableBytes (nbits w : Nat) : List Byte :=
  let v := w % 2 ^ nbits
  [BitVec.ofNat 8 v, BitVec.ofNat 8 (v / 256), BitVec.ofNat 8 (v / 65536)]

/-- What `decode` reads from an opcode-table word. -/
def decodeTableWord (nbits w : Nat) : Option Instr :=
  match decode (tableBytes nbits w) with
  | .ok (i, _) => some i
  | .error _ => none

/-- The mnemonic, as spec/opcode_table.json spells it (R2). -/
def Instr.mnemonic : Instr → String
  | .hlt => "HLT"
  | .ldi _ _ => "LDI"
  | .prn _ => "PRN"
  | .add _ _ => "ADD"
  | .mul _ _ => "MUL"
  | .cmp _ _ => "CMP"
  | .jmp _ => "JMP"
  | .jeq _ => "JEQ"
  | .jne _ => "JNE"
  | .push _ => "PUSH"
  | .pop _ => "POP"
  | .call _ => "CALL"
  | .ret => "RET"

/-- A register operand in assembly (R78); an index of 8 and above is spelled the same way. -/
def asmReg (b : Byte) : String := "R" ++ toString b.toNat

/-- The assembler spelling of an instruction (R78): one line per machine instruction, no
pseudo-instruction (R79). -/
def Instr.asm (i : Instr) : String :=
  match i with
  | .ldi ra imm => i.mnemonic ++ " " ++ asmReg ra ++ ", " ++ toString imm.toNat
  | .add ra rb => i.mnemonic ++ " " ++ asmReg ra ++ ", " ++ asmReg rb
  | .mul ra rb => i.mnemonic ++ " " ++ asmReg ra ++ ", " ++ asmReg rb
  | .cmp ra rb => i.mnemonic ++ " " ++ asmReg ra ++ ", " ++ asmReg rb
  | .prn ra => i.mnemonic ++ " " ++ asmReg ra
  | .jmp ra => i.mnemonic ++ " " ++ asmReg ra
  | .jeq ra => i.mnemonic ++ " " ++ asmReg ra
  | .jne ra => i.mnemonic ++ " " ++ asmReg ra
  | .push ra => i.mnemonic ++ " " ++ asmReg ra
  | .pop ra => i.mnemonic ++ " " ++ asmReg ra
  | .call ra => i.mnemonic ++ " " ++ asmReg ra
  | .hlt => i.mnemonic
  | .ret => i.mnemonic

end Sys2Proof
end

