-- ==== Sys2Proof/Machine/Fetch.lean ====
section
/-! DEFINITION. The fetch guard, opcode fetch, decode and operand fetch of a step (R90 to R94). -/

namespace Sys2Proof.Machine

/-- What a step fetches: an instruction, or the kind and detail of the fault it raises. -/
abbrev Fetched := Except (FaultKind × Nat) Instr

/-- The fault that a fetch at `pc` raises when no instruction can be decoded there. -/
def fetchFault (pc : Nat) : DecodeError → FaultKind × Nat
  | .noOpcode => (.outOfBounds .fetch, pc)
  | .invalidOpcode b => (.invalidOpcode, b.toNat)
  | .truncated _ => (.outOfBounds .operandFetch, 256)

/-- The bytes from `pc` up to cell 255 are decoded. No opcode byte: `pc` is above 255 (R91). No instruction has
that opcode: InvalidOpcode, before any operand is read (R93). An operand byte lies above 255: OutOfBounds with
the address 256 (R94). -/
def fetchWith (op : Opcodes) (s : State) : Fetched :=
  match decodeWith op (s.mem.bytesFrom 3 s.pc) with
  | .ok (i, _) => .ok i
  | .error e => .error (fetchFault s.pc e)

/-- The status a step runs in: `run()` sets Ready to Running before its first step (R85). -/
def State.begun (s : State) : State :=
  match s.status with
  | .ready => s.setStatus .running
  | .running => s
  | .halted => s
  | .faulted => s

/-- Where `n` bytes can be placed for the next fetch: at `pc`, or at 0 where they would not fit there (log 21). -/
def State.placeAt (s : State) (n : Nat) : Nat := if s.pc + n ≤ memSize then s.pc else 0

/-- `s` with these bytes where the next fetch reads, and the state made one that fetches there: a final
status becomes Running with an empty record, and `pc` is where the bytes fit (log 21). -/
def State.withBytesAtPc (s : State) (bytes : List Byte) : State :=
  { s with
    pc := s.placeAt bytes.length
    mem := s.mem.writeFrom (s.placeAt bytes.length) bytes
    status := if s.status.isFinal then .running else s.status
    fault := if s.status.isFinal then none else s.fault }

end Sys2Proof.Machine
end

