-- ==== Sys2Proof/Machine/Step.lean ====
section
/-! DEFINITION. One step of the machine (R90), and placing an instruction where it fetches. -/

namespace Sys2Proof.Machine

/-- The step of a running core (R90): fetch and decode, then execute; a stage that raises ends it. -/
def runStepWith (op : Opcodes) (s : State) : Result :=
  match fetchWith op s with
  | .ok i => exec i s
  | .error (kind, detail) => trap kind detail s

/-- One step under any opcode map (R9). In status Ready it is the first step of `run()`, which sets the status
to Running first (R85, log 3). After Halted or Faulted no instruction executes and nothing changes
(R35, R86, log 2). -/
def stepWith (op : Opcodes) (s : State) : Result :=
  match s.status with
  | .ready => runStepWith op s.begun
  | .running => runStepWith op s.begun
  | .halted => .next s
  | .faulted => .next s

/-- One step of CORE. -/
def step (s : State) : Host.Outcome State Fault Refusal := stepWith OPCODE s

/-- `s` with an opcode-table word stored where `step` fetches its next instruction: it stands for the host's
`load` (log 4). -/
def State.withFetchWord (s : State) (nbits w : Nat) : State := s.withBytesAtPc (tableBytes nbits w)

end Sys2Proof.Machine
end

