-- ==== Sys2Proof/Machine/HostOps.lean ====
section
/-! DEFINITION. The host interface (R80), each operation in the statuses that allow it: load, run, the fault report, the outcome, inspection, the rendering of the output. -/

namespace Sys2Proof.Machine

/-- Why `load` fails (R129). These make no fault record. -/
inductive LoadError where
  /-- outside status Ready (R81) -/
  | notReady
  /-- a program of more than 256 bytes (R82) -/
  | outOfMemory
  deriving DecidableEq, Repr

/-- `load(bytes)` (R81 to R83): in status Ready, byte i into cell i; a failure writes nothing. -/
def State.load (s : State) (bytes : List Byte) : Except LoadError State :=
  if s.status ≠ .ready then .error .notReady
  else if bytes.length > memSize then .error .outOfMemory
  else .ok { s with mem := s.mem.writeFrom 0 bytes }

/-- `run()` with fuel under any opcode map (R9, R85, R86, R98): steps while the status is not final. `none` is no outcome
of CORE: the fuel ran out. Called in a final status it changes nothing. In status Running it goes on with R85's loop,
which its own recursion needs; as an answer to a host that calls `run()` there it is a DESIGN CHOICE (log 25): the spec
leaves that call open. -/
def State.runFuelWith (op : Opcodes) : Nat → State → Option State
  | 0, s => if s.status.isFinal then some s else none
  | fuel + 1, s =>
    if s.status.isFinal then some s
    else
      match stepWith op s with
      | .next t => State.runFuelWith op fuel t
      | .fault _ => none
      | .refused _ => none

/-- `run()` with fuel under the opcode values of R66. -/
def State.runFuel (fuel : Nat) (s : State) : Option State := State.runFuelWith OPCODE fuel s

/-- CORE with its parameters as arguments (R9): the opcode map and the reset values. `Sys2Proof.core` is the one with
the defaults. -/
def coreWith (op : Opcodes) (p : ResetParams) : Host.Core :=
  { State := State, Fault := Fault, Refusal := Refusal, step := stepWith op, reset := State.resetWith p }

/-- The fault report (R80, R88): the record, in status Faulted alone. -/
def State.faultReport (s : State) : Option FaultRecord :=
  match s.status with
  | .ready => none
  | .running => none
  | .halted => none
  | .faulted => s.fault

/-- The outcome `run()` returns (R88). -/
inductive RunOutcome where
  | halted
  | faulted (record : FaultRecord)
  deriving DecidableEq, Repr

/-- The recorded outcome (R86, R88); none while there is no outcome yet. -/
def State.outcome (s : State) : Option RunOutcome :=
  match s.status with
  | .ready => none
  | .running => none
  | .halted => some .halted
  | .faulted => s.faultReport.map .faulted

/-- What the host reads of a core after a run (R80, R89): every register, `pc`, the three flags, every memory cell
and the output. -/
structure Inspection where
  x : Vector Byte 8
  pc : Nat
  flags : Flags
  mem : Memory
  out : List Byte
  deriving DecidableEq, Repr

/-- A register the host reads. -/
def Inspection.reg (v : Inspection) (r : RegIx) : Byte := v.x[r.val]

/-- A memory cell the host reads. -/
def Inspection.cell (v : Inspection) (a : Addr) : Byte := v.mem.read a

/-- Inspection (R57, R89): in status Halted or Faulted the host reads the state, and answering a view and no state it
changes nothing. In Ready and Running it has no such read, which `none` says (log 24). -/
def State.inspect (s : State) : Option Inspection :=
  if s.status.isFinal then
    some { x := s.x, pc := s.pc, flags := s.flags, mem := s.mem, out := s.out }
  else none

/-- The host's rendering of the output, one line per element: its unsigned decimal value (R102). -/
def renderOut (out : List Byte) : List String := out.map (fun b => toString b.toNat)

end Sys2Proof.Machine
end

