-- ==== Sys2Proof/Safety.lean ====
section
/-! DEFINITION. What counts as a good state and a safe run, and the words the statements use: the invariant, reachability, frames. -/

namespace Sys2Proof.Machine

/-- The byte after the opcode names a register: the instruction at `pc` has passed the check of Ra (R70, R95). -/
def State.hasRegOperand (s : State) : Prop := ∃ r : RegIx, s.mem.byteAt? (s.pc + 1) = some (regByte r)

/-- The SP that POP increments: the byte it pops where its register is R7, else the SP it starts with (R120). -/
def State.poppedSP (s : State) (ra : Byte) : Byte := if ra = regByte spIx then s.readByte s.sp else s.sp

/-- The operand byte that a record of site Register names: the byte after the opcode if it is no register index; if it
is one, and the instruction has a second register operand, the byte after that (R95, R127, R130). -/
def State.badOperandAt (s : State) (op b : Byte) : Prop :=
  7 < b.toNat ∧
  (s.mem.byteAt? (s.pc + 1) = some b ∨
    (s.hasRegOperand ∧ (op = OPCODE.add ∨ op = OPCODE.mul ∨ op = OPCODE.cmp) ∧
      s.mem.byteAt? (s.pc + 2) = some b))

/-- The record in a state is one of the rows of R125's table: the `pc` and the opcode are those of the faulting
instruction, which nothing has overwritten (R131); cause, opcode and detail are what the row of its kind says; and the
checks that R130 puts before that cause have passed. -/
def FaultRecord.isRow (r : FaultRecord) (s : State) : Prop :=
  r.pc = s.pc ∧ r.opcode = s.mem.byteAt? s.pc ∧
  match r.kind with
  | .invalidOpcode => ∃ b, r.opcode = some b ∧ b ∉ OPCODE.all ∧ r.detail = b.toNat
  | .outOfBounds .fetch => r.opcode = none ∧ 255 < r.pc ∧ r.detail = r.pc
  | .outOfBounds .operandFetch =>
    ∃ b w, r.opcode = some b ∧ widthOf? OPCODE b = some w ∧ 255 < r.pc + w - 1 ∧ r.detail = 256
  | .outOfBounds .register =>
    ∃ op b, r.opcode = some op ∧ op ∈ OPCODE.all ∧ op ≠ OPCODE.hlt ∧ op ≠ OPCODE.ret ∧
      s.badOperandAt op b ∧ r.detail = b.toNat
  | .outOfBounds .returnAddress =>
    r.opcode = some OPCODE.call ∧ s.hasRegOperand ∧ s.sp ≠ 0 ∧ r.pc = 254 ∧ r.detail = 256
  | .stackOverflow =>
    (r.opcode = some OPCODE.push ∨ r.opcode = some OPCODE.call) ∧ s.hasRegOperand ∧ s.sp = 0 ∧ r.detail = 0
  | .stackUnderflow =>
    ((r.opcode = some OPCODE.pop ∧ ∃ q : RegIx,
        s.mem.byteAt? (s.pc + 1) = some (regByte q) ∧ s.poppedSP (regByte q) = 255) ∨
      (r.opcode = some OPCODE.ret ∧ s.sp = 255)) ∧ r.detail = 255

/-- The invariant of CORE. -/
structure State.Inv (s : State) : Prop where
  /-- the memory list is in its canonical form: 256 cells, nothing listed twice -/
  memCanonical : s.mem.wf
  /-- "values above 256 are not reachable" (R23) -/
  pcBound : s.pc ≤ 256
  /-- at most one flag is true (R28, R30, R31) -/
  flagsAtMostOne : s.flags.count ≤ 1
  /-- the record is filled in status Faulted and empty in every other (R36) -/
  recordIffFaulted : s.fault.isSome = true ↔ s.status = .faulted
  /-- the record is a row of R125's table -/
  recordIsRow : ∀ r, s.fault = some r → r.isRow s

/-- The states a core comes to from reset by `load` and steps (R146). -/
inductive Reachable : State → Prop where
  | reset : Reachable State.reset
  | load {s t : State} {bytes : List Byte} : Reachable s → s.load bytes = .ok t → Reachable t
  | step {s t : State} : Reachable s → Machine.step s = .next t → Reachable t

/-- Instructions executed one after another, each while the status is Running. -/
inductive Executes : List Instr → State → State → Prop where
  | nil (s : State) : Executes [] s s
  | cons {i : Instr} {is : List Instr} {s t u : State} :
    s.status = .running → exec i s = .next t → Executes is t u → Executes (i :: is) s u

/-- A safe state: no fatal error has been raised. -/
def State.safe (s : State) : Bool := s.status != .faulted

/-- A safe run: every one of the first `n` steps answers a state that is not Faulted. -/
def State.safeFor : Nat → State → Prop
  | 0, s => s.safe = true
  | n + 1, s => s.safe = true ∧ ∀ t, step s = .next t → State.safeFor n t

/-- A step that can run an instruction starts in Ready or Running (R85, R90). -/
def State.live (s : State) : Prop := s.status = .ready ∨ s.status = .running

/-- The bytes of an instruction stand in the cells from `pc` on, so all of them below 256 (R62, R92, R94). -/
def State.holdsAtPc (s : State) (i : Instr) : Prop :=
  ∀ (k : Nat) (b : Byte), (encode i)[k]? = some b → s.mem.byteAt? (s.pc + k) = some b

/-- The bounds the execute stage checks: SP stays in 0..255 (R116) and a return address fits a byte (R121). -/
def withinBounds (i : Instr) (s : State) : Prop :=
  match i with
  | .push _ => s.sp ≠ 0
  | .pop ra => s.poppedSP ra ≠ 255
  | .call _ => s.sp ≠ 0 ∧ s.pc + 2 ≤ 255
  | .ret => s.sp ≠ 255
  | .hlt => True
  | .ldi _ _ => True
  | .prn _ => True
  | .add _ _ => True
  | .mul _ _ => True
  | .cmp _ _ => True
  | .jmp _ => True
  | .jeq _ => True
  | .jne _ => True

/-- An instruction with valid operands stands at `pc` and is within its bounds. -/
def State.canStep (s : State) : Prop := ∃ i, s.holdsAtPc i ∧ i.wellFormed = true ∧ withinBounds i s

/-- A state stopped by a fault: status Faulted and the record, all else as it was (R131). -/
def State.faultedWith (s : State) (r : FaultRecord) : State :=
  { s with status := .faulted, fault := some r }

/-- Every cell of memory reads as before. -/
def SameMemory (s t : State) : Prop := ∀ a : Addr, t.readByte a = s.readByte a

/-- Every cell but those of `as` reads as before. -/
def SameMemoryBut (as : List Addr) (s t : State) : Prop :=
  ∀ a : Addr, a ∉ as → t.readByte a = s.readByte a

/-- Every register but those of `rs` holds what it held. -/
def SameRegsBut (rs : List RegIx) (s t : State) : Prop := ∀ r : RegIx, r ∉ rs → t.reg r = s.reg r

/-- The run status, the fault record and the output are as before. -/
def SameHostView (s t : State) : Prop := t.status = s.status ∧ t.fault = s.fault ∧ t.out = s.out

/-- Two states that differ in nothing but G and L. -/
def SameButGL (s t : State) : Prop :=
  t = { s with flags := { s.flags with g := t.flags.g, l := t.flags.l } }

/-- The registers R18 says an instruction writes, from its operand bytes; the stack pointer among them for PUSH,
POP, CALL and RET. -/
def writesOf : Instr → List RegIx
  | .hlt => []
  | .ldi ra _ => (regIndex? ra).toList
  | .prn _ => []
  | .add ra _ => (regIndex? ra).toList
  | .mul ra _ => (regIndex? ra).toList
  | .cmp _ _ => []
  | .jmp _ => []
  | .jeq _ => []
  | .jne _ => []
  | .push _ => [spIx]
  | .pop ra => spIx :: (regIndex? ra).toList
  | .call _ => [spIx]
  | .ret => [spIx]

/-- The cells an instruction stores to: PUSH and CALL the one at the decremented SP, the others none (R45, R50). -/
def storesOf (i : Instr) (s : State) : List Addr :=
  match i with
  | .push _ => [s.pushAddr]
  | .call _ => [s.pushAddr]
  | .hlt => []
  | .ldi _ _ => []
  | .prn _ => []
  | .add _ _ => []
  | .mul _ _ => []
  | .cmp _ _ => []
  | .jmp _ => []
  | .jeq _ => []
  | .jne _ => []
  | .pop _ => []
  | .ret => []

/-- The register an instruction names at Ra, read in a state; 0 where it names none. -/
def regAt (s : State) (ra : Byte) : Nat :=
  match regIndex? ra with
  | some a => s.target a
  | none => 0

/-- Where an instruction that sets `pc` itself sets it (R25): JMP, JEQ and JNE when taken, CALL and RET. The others,
and a branch not taken, advance by their width. CALL reads its register after the decrement of SP (R123). -/
def transferOf (i : Instr) (s : State) : Option Nat :=
  match i with
  | .jmp ra => some (regAt s ra)
  | .jeq ra => if s.flags.e then some (regAt s ra) else none
  | .jne ra => if s.flags.e then none else some (regAt s ra)
  | .call ra => some (regAt s.decSP ra)
  | .ret => some s.loadTop.toNat
  | .hlt => none
  | .ldi _ _ => none
  | .prn _ => none
  | .add _ _ => none
  | .mul _ _ => none
  | .cmp _ _ => none
  | .push _ => none
  | .pop _ => none

end Sys2Proof.Machine
end

