-- ==== Sys2Proof/Certificates/Slice0/Obligations.lean ====
section
/-! DEFINITION. The statements about CORE for the provers. Rules R<n>, decisions D<n> and files are those of spec/. A register operand is written `regByte r` with `r` any of the eight registers, so a statement over all `r` covers every valid operand byte, R7 among them; the invalid bytes are the subject of BadRegisterIndexRaises. -/

open Sys2Proof Sys2Proof.Machine

/-! ## Reset and the parameters -/

/-- The reset table of R144 with the default parameter values, which are the spec's own decisions (D4 to D7, D20; log 6):
every register, every cell, the flags, `pc`, status, fault record and output. -/
def Obligations.ResetLeavesTheTableOfValues : Prop :=
  State.reset.pc = 0 ∧
  (∀ r : RegIx, State.reset.reg r = if r = spIx then 0xF4 else 0x00) ∧
  (∀ a : Addr, State.reset.readByte a = 0x00) ∧
  State.reset.flags = ⟨false, false, false⟩ ∧
  State.reset.status = .ready ∧ State.reset.fault = none ∧ State.reset.out = []

/-- Reset under any values of the parameters of R9: each register reads `REG_INIT`, SP reads `SP_INIT`, every one of the
256 cells reads `MEM_INIT`. -/
def Obligations.ResetTakesAnyParameters : Prop :=
  ∀ (p : ResetParams),
    (∀ r : RegIx, (State.resetWith p).reg r = if r = spIx then p.spInit else p.regInit) ∧
    (∀ a : Addr, (State.resetWith p).readByte a = p.memInit) ∧
    (State.resetWith p).flags = ⟨p.eInit, p.gInit, p.lInit⟩ ∧
    (State.resetWith p).pc = 0 ∧ (State.resetWith p).status = .ready ∧
    (State.resetWith p).fault = none ∧ (State.resetWith p).out = []

/-- The invariant holds after reset, and after reset under any parameters with at most one flag true. -/
def Obligations.ResetMeetsTheInvariant : Prop :=
  State.reset.Inv ∧
  ∀ p : ResetParams, p.eInit.toNat + p.gInit.toNat + p.lInit.toNat ≤ 1 → (State.resetWith p).Inv

/-! ## The machine as a whole -/

/-- Every step keeps the invariant, from every state that meets it: memory canonical, `pc` at most 256 (R23), at most one
flag true (R30), a record exactly in status Faulted (R36), and every record a row of R125's table, which rests on the spec's
decisions D8, D9 and D12 to D16 (log 9, log 13, log 14). A step in Ready is log 3, one after Halted or Faulted log 2. -/
def Obligations.EveryStepKeepsTheInvariant : Prop :=
  ∀ s t : State, s.Inv → step s = .next t → t.Inv

/-- The host's `load` keeps the invariant. -/
def Obligations.LoadKeepsTheInvariant : Prop :=
  ∀ (s t : State) (bytes : List Byte), s.Inv → s.load bytes = .ok t → t.Inv

/-- In every state a core comes to from reset by `load` and steps, status Faulted comes with a record that is a row of
R125's table for the instruction at `pc`; the rows rest on the spec's decisions D8, D9 and D12 to D16, the codes 1 to 4 on
D12. A step in Ready is log 3, one after Halted or Faulted log 2. -/
def Obligations.EveryReachableFaultIsATableRow : Prop :=
  (∀ s : State, Reachable s → s.status = .faulted → ∃ r, s.fault = some r ∧ r.isRow s) ∧
  ∀ k : FaultKind, (k.code = 1 ↔ k = .invalidOpcode) ∧ (k.code = 2 ↔ ∃ site, k = .outOfBounds site) ∧
    (k.code = 3 ↔ k = .stackOverflow) ∧ (k.code = 4 ↔ k = .stackUnderflow)

/-- One outcome for each state (R97), and a step of a live core leaves it Running, Halted or Faulted. That a step in Halted or
Faulted answers the same state is the model's choice (log 2), as is what a step in Ready does (log 3): the rule's step is one
of a Running core. -/
def Obligations.StepHasExactlyOneOutcome : Prop :=
  ∀ s : State, ∃ t, step s = .next t ∧ (∀ u, step s = .next u → u = t) ∧
    (s.live → t.status = .running ∨ t.status = .halted ∨ t.status = .faulted)

/-- A step runs the decoded instruction: `exec` of what the bytes at `pc` decode to, at the state with the status set to
Running (R85, R90; that a step in Ready runs the first instruction is the model's choice, log 3). Nothing else is put
around `exec`. -/
def Obligations.StepRunsTheDecodedInstruction : Prop :=
  (∀ (s : State) (i : Instr) (rest : List Byte), s.live →
    decode (s.mem.bytesFrom 3 s.pc) = .ok (i, rest) → step s = exec i s.begun) ∧
  (∀ s : State, s.live → s.begun = { s with status := .running })

/-- The bytes of an instruction in the cells from `pc` on (R47, R62, R92, R94, R59) make a step run it, whatever else
memory holds. The rules give a step of a Running core; that one in Ready runs the instruction is the model's choice (log 3). -/
def Obligations.StepRunsTheBytesAtPc : Prop :=
  ∀ (s : State) (i : Instr), s.live →
    (∀ k b, (encode i)[k]? = some b → s.mem.byteAt? (s.pc + k) = some b) → step s = exec i s.begun

/-- A byte at `pc` that is none of the 13 opcodes raises InvalidOpcode with that byte and `pc` (R93, R126), wherever it stands
(so at 255 too), and one that is an opcode does not. The match of the whole byte is the spec's decision D2 (log 26); that nothing else changes is the spec's decision D11 (R131, log 12); that
a step in Ready raises is the model's choice (log 3). -/
def Obligations.InvalidOpcodeRaises : Prop :=
  ∀ (s : State) (b : Byte), s.live → s.mem.byteAt? s.pc = some b →
    (b ∉ OPCODE.all →
      step s = .next (s.faultedWith ⟨.invalidOpcode, s.pc, some b, b.toNat⟩)) ∧
    (b ∈ OPCODE.all → s.fault = none →
      ∀ t r, step s = .next t → t.fault = some r → r.kind ≠ .invalidOpcode)

/-- R91 (the spec's decision D8): a step at `pc` above 255 raises OutOfBounds site Fetch with the address `pc` and no
opcode. That nothing else changes is its D11 (log 12); that a step in Ready raises is the model's choice (log 3). -/
def Obligations.FetchPastMemoryRaises : Prop :=
  ∀ s : State, s.live → 255 < s.pc →
    step s = .next (s.faultedWith ⟨.outOfBounds .fetch, s.pc, none, s.pc⟩)

/-- R94 (the spec's decision D9): an instruction whose last byte would lie above 255 raises OutOfBounds site OperandFetch
with the address 256. That nothing else changes is its D11 (log 12); that a step in Ready raises is the model's choice
(log 3). -/
def Obligations.OperandPastMemoryRaises : Prop :=
  ∀ (s : State) (b : Byte) (w : Nat), s.live → s.mem.byteAt? s.pc = some b →
    widthOf? OPCODE b = some w → 255 < s.pc + w - 1 →
    step s = .next (s.faultedWith ⟨.outOfBounds .operandFetch, s.pc, some b, 256⟩)

/-- R95 and R130 (the spec's decisions D10, D13): the first register operand above 7, Ra before Rb, raises OutOfBounds site
Register with that index, and nothing is written (D11, log 12). The opcode recorded is the byte at `pc` (log 19). -/
def Obligations.BadRegisterIndexRaises : Prop :=
  ∀ (i : Instr) (s : State) (b : Byte), i.badIndex? = some b →
    exec i s = .next (s.faultedWith ⟨.outOfBounds .register, s.pc, s.mem.byteAt? s.pc, b.toNat⟩)

/-- A step that raises (R131) sets status Faulted and fills the record with the `pc`, the opcode (absent for site Fetch alone)
and a detail, a row of R125's table; nothing else changes, and the run ends and returns the fault. The rows and the order of
the checks are the spec's decisions D8, D9, D12 to D14 and D16 (log 13, log 14), with D15 for POP R7 (log 9); that a faulting
instruction writes nothing is its D11 (log 12); a step in Ready is log 3. -/
def Obligations.RaisingChangesStatusAndRecordOnly : Prop :=
  ∀ s t : State, s.live → step s = .next t → t.status = .faulted →
    ∃ r : FaultRecord, t = s.faultedWith r ∧ r.pc = s.pc ∧ r.opcode = s.mem.byteAt? s.pc ∧
      (r.opcode = none ↔ r.kind = .outOfBounds .fetch) ∧ r.isRow t ∧
      t.outcome = some (.faulted r) ∧ ∀ n, t.runFuel n = some t

/-- After Halted or Faulted nothing changes (R35, R86, R134): a step, which executes nothing, answers the same state (the
model's choice, log 2), `load` answers NotReady, and `run` returns at once with the recorded outcome (R88): Halted, or Faulted
with the record. That `run` does so is the spec's decision D20. -/
def Obligations.FinalStatusStays : Prop :=
  ∀ s : State, s.status.isFinal = true →
    step s = .next s ∧ (∀ bytes, s.load bytes = .error .notReady) ∧ (∀ n, s.runFuel n = some s) ∧
    (s.status = .halted → s.outcome = some .halted) ∧
    (∀ r, s.status = .faulted → s.fault = some r → s.outcome = some (.faulted r))

/-- A run ends exactly when the status becomes final, Halted by a HLT and Faulted otherwise, and the state it returns is the
one its steps reach (R85, R88, R98); a run that never does goes on for ever, and running out of fuel is no outcome. What a run
called in status Running does (log 25), a step in Ready (log 3) and a step after Halted or Faulted (log 2) are the model's
choices. -/
def Obligations.RunEndsExactlyAtAFinalStatus : Prop :=
  (∀ (s t : State) (n : Nat), s.runFuel n = some t → t.status = .halted ∨ t.status = .faulted) ∧
  (∀ s t : State, (∃ n, s.runFuel n = some t) ↔
    ∃ k : Nat, Sys2Proof.core.run k s = .next t ∧ t.status.isFinal = true) ∧
  (∀ s t : State, s.live → step s = .next t → (t.status = .halted ↔ fetchWith OPCODE s = .ok .hlt))

/-- A run's outcome does not depend on the fuel: more fuel gives the same final state. A run called in status Running is the
model's choice (log 25). -/
def Obligations.MoreFuelGivesTheSameRun : Prop :=
  ∀ (s t : State) (n m : Nat), s.runFuel n = some t → n ≤ m → s.runFuel m = some t

/-- When CORE is safe. A Ready or Running state steps to one that is not Faulted exactly when at `pc` stands a whole
instruction (R92 to R94) whose register operands are valid (R95), with SP and the return address within the bounds of R116 and
R121; and a run of `n` steps is safe exactly when it starts unfaulted and every live state it steps from is such a one. The
checks are the spec's decisions D2, D8 to D10, D14 and D16, for POP R7 also D15; a step in Ready is log 3, one after Halted log 2. -/
def Obligations.SafeRunStaysWithinTheBounds : Prop :=
  (∀ s : State, s.live → (s.safeFor 1 ↔ s.canStep)) ∧
  ∀ (n : Nat) (s : State), s.safeFor n ↔
    s.safe = true ∧ ∀ (k : Nat) (t : State), k < n → Sys2Proof.core.run k s = .next t → t.live → t.canStep

/-! ## Encoding -/

/-- Decoding the bytes of an instruction gives it back, every operand at every byte value, under every opcode map whose values
are distinct; those of R66 are (R69). -/
def Obligations.DecodeOfEncodeIsTheInstruction : Prop :=
  OPCODE.Distinct ∧
  ∀ (op : Opcodes), op.Distinct → ∀ (i : Instr) (rest : List Byte),
    decodeWith op (encodeWith op i ++ rest) = .ok (i, rest)

/-- What decodes is the bytes of the instruction, and no more of them are taken than its width. -/
def Obligations.EncodeOfDecodeIsTheBytes : Prop :=
  ∀ (op : Opcodes) (bytes rest : List Byte) (i : Instr), decodeWith op bytes = .ok (i, rest) →
    bytes = encodeWith op i ++ rest ∧ bytes.length = i.width + rest.length

/-- The width is a function of the opcode byte alone, with the listed values, and an invalid opcode has none (R64); whatever
the opcode values are. That a byte is invalid unless it is one of the 13, whatever width its bits could name, is the spec's
decision D2 (log 26). -/
def Obligations.WidthIsAFunctionOfTheOpcode : Prop :=
  (∀ (op : Opcodes) (b : Byte) (rest after : List Byte) (i : Instr),
    decodeWith op (b :: rest) = .ok (i, after) →
      widthOf? op b = some i.width ∧ (b :: rest).length = i.width + after.length) ∧
  (∀ (op : Opcodes) (b : Byte), b ∉ op.all → widthOf? op b = none) ∧
  (∀ x y : Byte, Instr.hlt.width = 1 ∧ (Instr.ldi x y).width = 3 ∧ (Instr.prn x).width = 2 ∧
    (Instr.add x y).width = 3 ∧ (Instr.mul x y).width = 3 ∧ (Instr.cmp x y).width = 3 ∧
    (Instr.jmp x).width = 2 ∧ (Instr.jeq x).width = 2 ∧ (Instr.jne x).width = 2 ∧
    (Instr.push x).width = 2 ∧ (Instr.pop x).width = 2 ∧ (Instr.call x).width = 2 ∧
    Instr.ret.width = 1)

/-- An opcode byte selects an instruction only if it equals that instruction's opcode exactly, and every byte that equals none
of the 13 selects none (R67); whatever the opcode values are. The exact match of the whole byte is the spec's own decision D2
(log 26). -/
def Obligations.OpcodeMatchesTheWholeByte : Prop :=
  (∀ (op : Opcodes) (b : Byte) (rest after : List Byte) (i : Instr),
    decodeWith op (b :: rest) = .ok (i, after) → b = i.opcodeWith op) ∧
  (∀ (op : Opcodes) (b : Byte) (rest : List Byte),
    decodeWith op (b :: rest) = .error (.invalidOpcode b) ↔ b ∉ op.all)

/-- A word of each of the 13 instructions written out from the encodings of R63 and R66 (opcode values: the spec's decision D1,
log 5), two illegal bytes, and the number of those, 243 (R73; the match of the whole byte is its D2, log 26). -/
def Obligations.WrittenOutWordsDecode : Prop :=
  decode [0b00000001] = .ok (.hlt, []) ∧
  decode [0b10000010, 0b00000011, 0b11001000] = .ok (.ldi 3 200, []) ∧
  decode [0b01000111, 0b00000101] = .ok (.prn 5, []) ∧
  decode [0b10100000, 0b00000000, 0b00000001] = .ok (.add 0 1, []) ∧
  decode [0b10100010, 0b00000010, 0b00000011] = .ok (.mul 2 3, []) ∧
  decode [0b10100111, 0b00000100, 0b00000110] = .ok (.cmp 4 6, []) ∧
  decode [0b01010100, 0b00000100] = .ok (.jmp 4, []) ∧
  decode [0b01010101, 0b00000010] = .ok (.jeq 2, []) ∧
  decode [0b01010110, 0b00000011] = .ok (.jne 3, []) ∧
  decode [0b01000101, 0b00000111] = .ok (.push 7, []) ∧
  decode [0b01000110, 0b00000001] = .ok (.pop 1, []) ∧
  decode [0b01010000, 0b00000001] = .ok (.call 1, []) ∧
  decode [0b00010001] = .ok (.ret, []) ∧
  decode [0b11111111] = .error (.invalidOpcode 0xFF) ∧
  decode [0b00000000] = .error (.invalidOpcode 0x00) ∧
  ((List.range 256).filter (fun n => BitVec.ofNat 8 n ∉ OPCODE.all)).length = 243

/-- Placing an opcode-table word where the next step fetches makes that step run its instruction, in any state (log 4,
log 21; a step in Ready: log 3). -/
def Obligations.PlacedTableWordRuns : Prop :=
  ∀ (s : State) (nbits w : Nat) (i : Instr), decodeTableWord nbits w = some i →
    step (s.withFetchWord nbits w) = exec i (s.withFetchWord nbits w).begun ∧
    (s.withFetchWord nbits w).x = s.x ∧ (s.withFetchWord nbits w).flags = s.flags ∧
    (s.withFetchWord nbits w).out = s.out

/-! ## The instructions' results, and where each completes -/

/-- R99: HLT advances `pc` past itself and sets status Halted, nothing else, from any state. -/
def Obligations.HaltAdvancesThenStops : Prop :=
  ∀ s : State, exec .hlt s = .next { s with pc := s.pc + 1, status := .halted }

/-- R100: LDI completes for every register and every immediate; R7 is the stack pointer (R21). -/
def Obligations.LoadImmediateSetsTheRegister : Prop :=
  ∀ (r : RegIx) (imm : Byte) (s : State), ∃ t, exec (.ldi (regByte r) imm) s = .next t ∧
    t.reg r = imm ∧ SameRegsBut [r] s t ∧ t.pc = s.pc + 3 ∧ t.flags = s.flags ∧
    SameMemory s t ∧ SameHostView s t

/-- R101: PRN completes for every register and emits its byte. -/
def Obligations.PrintEmitsTheRegister : Prop :=
  ∀ (r : RegIx) (s : State), exec (.prn (regByte r)) s =
    .next { s with out := s.out ++ [s.reg r], pc := s.pc + 2 }

/-- ADD and MUL (R103, R104, R106, R107) keep the exact result modulo 256, write no flag and raise nothing; CMP (R108) writes
all three flags, and that it compares as unsigned integers (R105) is the spec's own decision D23 (log 17). All complete for
every pair of registers. -/
def Obligations.AluWrapsAndComparesUnsigned : Prop :=
  (∀ (a b : RegIx) (s : State), ∃ t, exec (.add (regByte a) (regByte b)) s = .next t ∧
    (t.reg a).toNat = ((s.reg a).toNat + (s.reg b).toNat) % 256 ∧ SameRegsBut [a] s t ∧
    t.pc = s.pc + 3 ∧ t.flags = s.flags ∧ SameMemory s t ∧ SameHostView s t) ∧
  (∀ (a b : RegIx) (s : State), ∃ t, exec (.mul (regByte a) (regByte b)) s = .next t ∧
    (t.reg a).toNat = ((s.reg a).toNat * (s.reg b).toNat) % 256 ∧ SameRegsBut [a] s t ∧
    t.pc = s.pc + 3 ∧ t.flags = s.flags ∧ SameMemory s t ∧ SameHostView s t) ∧
  (∀ (a b : RegIx) (s : State), ∃ t, exec (.cmp (regByte a) (regByte b)) s = .next t ∧
    (t.flags.e = true ↔ (s.reg a).toNat = (s.reg b).toNat) ∧
    (t.flags.g = true ↔ (s.reg a).toNat > (s.reg b).toNat) ∧
    (t.flags.l = true ↔ (s.reg a).toNat < (s.reg b).toNat) ∧ SameRegsBut [] s t ∧
    t.pc = s.pc + 3 ∧ SameMemory s t ∧ SameHostView s t)

/-- R110 and R111: a taken jump sets `pc` to the register without first advancing it, a conditional jump not taken advances it
by 2; JEQ and JNE test E alone; nothing else changes. All complete for every register. -/
def Obligations.JumpsSetOrAdvancePc : Prop :=
  ∀ (r : RegIx) (s : State),
    exec (.jmp (regByte r)) s = .next { s with pc := (s.reg r).toNat } ∧
    exec (.jeq (regByte r)) s =
      .next { s with pc := if s.flags.e then (s.reg r).toNat else s.pc + 2 } ∧
    exec (.jne (regByte r)) s =
      .next { s with pc := if s.flags.e then s.pc + 2 else (s.reg r).toNat }

/-- R119: PUSH completes when SP is not 0. It stores at the decremented SP, the address `s.pushAddr` the meaning stores to,
the register read after the decrement: for R7 the decremented SP itself (the spec's decision D15). -/
def Obligations.PushStoresBelowTheStackPointer : Prop :=
  ∀ (r : RegIx) (s : State), s.sp ≠ 0 → ∃ t, exec (.push (regByte r)) s = .next t ∧
    t.sp.toNat = s.sp.toNat - 1 ∧ s.pushAddr = t.sp ∧
    t.readByte s.pushAddr = (if r = spIx then t.sp else s.reg r) ∧
    SameMemoryBut [s.pushAddr] s t ∧ SameRegsBut [spIx] s t ∧
    t.pc = s.pc + 2 ∧ t.flags = s.flags ∧ SameHostView s t

/-- R120 for a register other than R7: POP completes when SP is not 255. -/
def Obligations.PopLoadsTheTopOfStack : Prop :=
  ∀ (r : RegIx) (s : State), r ≠ spIx → s.sp ≠ 255 →
    ∃ t, exec (.pop (regByte r)) s = .next t ∧
      t.reg r = s.readByte s.sp ∧ t.sp.toNat = s.sp.toNat + 1 ∧ SameRegsBut [r, spIx] s t ∧
      SameMemory s t ∧ t.pc = s.pc + 2 ∧ t.flags = s.flags ∧ SameHostView s t

/-- R120 for R7 (the spec's decision D15): POP R7 completes when the popped byte is not 255, and leaves SP that byte plus 1,
whatever SP was. -/
def Obligations.PopIntoStackPointerAddsOne : Prop :=
  ∀ s : State, s.readByte s.sp ≠ 255 → ∃ t, exec (.pop (regByte spIx)) s = .next t ∧
    t.sp.toNat = (s.readByte s.sp).toNat + 1 ∧ SameRegsBut [spIx] s t ∧
    SameMemory s t ∧ t.pc = s.pc + 2 ∧ t.flags = s.flags ∧ SameHostView s t

/-- R123: CALL completes when SP is not 0 and the return address `pc + 2` fits a byte (R121). It stores the return address at
the decremented SP and sets `pc` to the register read after the decrement: for R7 the decremented SP (D15). -/
def Obligations.CallSavesTheReturnAddress : Prop :=
  ∀ (r : RegIx) (s : State), s.sp ≠ 0 → s.pc + 2 ≤ 255 →
    ∃ t, exec (.call (regByte r)) s = .next t ∧
      t.sp.toNat = s.sp.toNat - 1 ∧ s.pushAddr = t.sp ∧
      (t.readByte s.pushAddr).toNat = s.pc + 2 ∧ SameMemoryBut [s.pushAddr] s t ∧
      t.pc = (if r = spIx then s.sp.toNat - 1 else (s.reg r).toNat) ∧
      SameRegsBut [spIx] s t ∧ t.flags = s.flags ∧ SameHostView s t

/-- R124: RET completes when SP is not 255. The popped byte becomes `pc`. -/
def Obligations.ReturnPopsThePc : Prop :=
  ∀ s : State, s.sp ≠ 255 → ∃ t, exec .ret s = .next t ∧
    t.pc = (s.readByte s.sp).toNat ∧ t.sp.toNat = s.sp.toNat + 1 ∧ SameRegsBut [spIx] s t ∧
    SameMemory s t ∧ t.flags = s.flags ∧ SameHostView s t

/-- R119, R123, R128 (the spec's decisions D13, D14): PUSH and CALL of any register with SP 0 raise StackOverflow with
detail 0, CALL whatever its return address is, and nothing is written (D11, log 12). The opcode recorded is the byte at `pc`
(log 19). -/
def Obligations.PushAndCallAtZeroOverflow : Prop :=
  ∀ (r : RegIx) (s : State), s.sp = 0 →
    exec (.push (regByte r)) s =
      .next (s.faultedWith ⟨.stackOverflow, s.pc, s.mem.byteAt? s.pc, 0⟩) ∧
    exec (.call (regByte r)) s =
      .next (s.faultedWith ⟨.stackOverflow, s.pc, s.mem.byteAt? s.pc, 0⟩)

/-- R120, R124, R128 (the spec's decisions D14, D15): POP into a register other than R7, and RET, with SP 255 raise
StackUnderflow with detail 255; POP R7 raises it when the popped byte is 255; nothing is written (D11, log 12). -/
def Obligations.PopAndReturnPast255Underflow : Prop :=
  (∀ (r : RegIx) (s : State), r ≠ spIx → s.sp = 255 →
    exec (.pop (regByte r)) s =
      .next (s.faultedWith ⟨.stackUnderflow, s.pc, s.mem.byteAt? s.pc, 255⟩)) ∧
  (∀ s : State, s.readByte s.sp = 255 →
    exec (.pop (regByte spIx)) s =
      .next (s.faultedWith ⟨.stackUnderflow, s.pc, s.mem.byteAt? s.pc, 255⟩)) ∧
  (∀ s : State, s.sp = 255 →
    exec .ret s = .next (s.faultedWith ⟨.stackUnderflow, s.pc, s.mem.byteAt? s.pc, 255⟩))

/-- R121 (the spec's decision D16): CALL at 254 with SP not 0 raises OutOfBounds site ReturnAddress with the address 256,
and nothing is written (D11, log 12). -/
def Obligations.CallAt254Raises : Prop :=
  ∀ (r : RegIx) (s : State), s.sp ≠ 0 → s.pc = 254 →
    exec (.call (regByte r)) s =
      .next (s.faultedWith ⟨.outOfBounds .returnAddress, 254, s.mem.byteAt? 254, 256⟩)

/-! ## Rules over all instructions -/

/-- Only CMP writes the flags, all three, and exactly one becomes true; no other instruction, no fault and no host operation
changes them (R28). A step in Ready, of which the clause about a fault speaks too, is the model's choice (log 3). -/
def Obligations.OnlyCompareWritesTheFlags : Prop :=
  (∀ (a b : RegIx) (s t : State), exec (.cmp (regByte a) (regByte b)) s = .next t →
    t.flags.count = 1) ∧
  (∀ (a b : RegIx) (s u t t' : State), s.x = u.x → exec (.cmp (regByte a) (regByte b)) s = .next t →
    exec (.cmp (regByte a) (regByte b)) u = .next t' → t.flags = t'.flags) ∧
  (∀ (i : Instr) (s t : State), (∀ a b, i ≠ .cmp a b) → exec i s = .next t → t.flags = s.flags) ∧
  (∀ s t : State, s.live → step s = .next t → t.status = .faulted → t.flags = s.flags) ∧
  (∀ (s t : State) (bytes : List Byte), s.load bytes = .ok t → t.flags = s.flags) ∧
  (∀ s : State, s.begun.flags = s.flags)

/-- An instruction that does not fault either sets `pc` to its target (JMP; JEQ and JNE when taken; CALL; RET) or advances it
by its width; one that faults does neither (R25). That CALL R7 jumps to the decremented SP is the spec's decision D15 (log 9),
that `pc` keeps its address on a fault its D11 (log 12). -/
def Obligations.PcIsAdvancedOrSet : Prop :=
  ∀ (i : Instr) (s t : State), s.status = .running → exec i s = .next t →
    (t.status = .faulted → t.pc = s.pc) ∧
    (t.status ≠ .faulted → t.pc = (transferOf i s).getD (s.pc + i.width))

/-- The frame of the registers (R18): an instruction, faulting or not, writes no register but those R18 lists for it. -/
def Obligations.RegistersChangeOnlyWhereListed : Prop :=
  ∀ (i : Instr) (s t : State), exec i s = .next t → SameRegsBut (writesOf i) s t

/-- The frame of memory (R45, R50, R52): PUSH and CALL store to the one cell at the decremented SP, and every other
instruction stores to none; every other cell reads as before. -/
def Obligations.MemoryChangesOnlyAtTheStackCell : Prop :=
  ∀ (i : Instr) (s t : State), exec i s = .next t → SameMemoryBut (storesOf i s) s t

/-- The frame of the output (R37, R138), empty after reset: PRN of a register completes and appends that register's byte; a
PRN whose operand is no register, and every instruction that is not PRN, leave the output as it was. -/
def Obligations.OnlyPrintEmits : Prop :=
  State.reset.out = [] ∧
  (∀ (r : RegIx) (s : State), ∃ t, exec (.prn (regByte r)) s = .next t ∧ t.out = s.out ++ [s.reg r]) ∧
  (∀ (ra : Byte) (s t : State), 7 < ra.toNat → exec (.prn ra) s = .next t → t.out = s.out) ∧
  (∀ (i : Instr) (s t : State), (∀ ra, i ≠ .prn ra) → exec i s = .next t → t.out = s.out)

/-- The frame of the run status (R98, R138) and the column "raised by" of R125: an instruction that is not HLT and raises
nothing leaves status and record alone, and with valid operands only PUSH, POP, CALL and RET raise in the execute
stage. -/
def Obligations.OnlyStackInstructionsRaiseInExecute : Prop :=
  ∀ (i : Instr) (s t : State), s.status = .running → exec i s = .next t →
    (t.status ≠ .faulted → t.fault = s.fault ∧ (t.status = if i = .hlt then .halted else .running)) ∧
    (t.status = .faulted → i.wellFormed = true →
      i = .ret ∨ ∃ r : RegIx, i = .push (regByte r) ∨ i = .pop (regByte r) ∨ i = .call (regByte r))

/-- R29: no instruction reads G or L. Two states that differ in nothing but G and L step to states that differ in nothing but
G and L, so no register, cell, `pc`, status, record, output or E ever depends on them. A step in Ready is log 3, one after Halted or
Faulted log 2. -/
def Obligations.GreaterAndLessAreNeverRead : Prop :=
  ∀ s u t v : State, SameButGL s u → step s = .next t → step u = .next v → SameButGL t v

/-! ## Stack, memory and host -/

/-- A byte pushed and popped comes back, and SP with it (95_test_vectors.md W4), for every pair of registers but R7. -/
def Obligations.PushThenPopRoundTrips : Prop :=
  ∀ (r q : RegIx) (s : State), r ≠ spIx → q ≠ spIx → s.sp ≠ 0 →
    ∃ t u, exec (.push (regByte r)) s = .next t ∧ exec (.pop (regByte q)) t = .next u ∧
      u.reg q = s.reg r ∧ u.sp = s.sp ∧ SameRegsBut [q] s u

/-- CALL then RET comes back to the instruction after the CALL with every register as it was (95_test_vectors.md W5, R122). -/
def Obligations.CallThenReturnRoundTrips : Prop :=
  ∀ (r : RegIx) (s : State), s.sp ≠ 0 → s.pc + 2 ≤ 255 →
    ∃ t u, exec (.call (regByte r)) s = .next t ∧ exec .ret t = .next u ∧
      u.pc = s.pc + 2 ∧ SameRegsBut [] s u ∧ u.flags = s.flags

/-- R59 (the spec's decision D18): a HLT opcode that PUSH stores just after itself is what the next step runs. -/
def Obligations.PushedByteIsFetchedNext : Prop :=
  ∀ (r : RegIx) (s : State), s.status = .running → s.sp ≠ 0 → s.pushAddr.toNat = s.pc + 2 →
    r ≠ spIx → s.reg r = OPCODE.hlt →
    ∃ t, exec (.push (regByte r)) s = .next t ∧
      step t = .next { t with pc := s.pc + 3, status := .halted }

/-- Two memories in canonical form that read alike are the same data. -/
def Obligations.MemoriesThatReadAlikeAreEqual : Prop :=
  ∀ m n : Memory, m.wf → n.wf → (∀ a : Addr, m.read a = n.read a) → m = n

/-- R81: in status Ready, `load` of at most 256 bytes writes byte i to cell i and nothing else; outside Ready it writes
nothing and answers NotReady. -/
def Obligations.LoadWritesTheProgram : Prop :=
  (∀ (s : State) (bytes : List Byte), s.status = .ready → bytes.length ≤ 256 →
    ∃ t, s.load bytes = .ok t ∧
      (∀ (i : Nat) (b : Byte), bytes[i]? = some b → t.mem.byteAt? i = some b) ∧
      (∀ a : Addr, bytes.length ≤ a.toNat → t.readByte a = s.readByte a) ∧
      t.x = s.x ∧ t.pc = s.pc ∧ t.flags = s.flags ∧ SameHostView s t) ∧
  (∀ (s : State) (bytes : List Byte), s.status ≠ .ready → s.load bytes = .error .notReady)

/-- R82 (the spec's decision D21): a program of more than 256 bytes is not loaded. -/
def Obligations.LoadRefusesALongProgram : Prop :=
  ∀ (s : State) (bytes : List Byte), s.status = .ready → 256 < bytes.length →
    s.load bytes = .error .outOfMemory

/-- The host's reads (R57, R80, R89; the spec's decisions D19, D21, log 24). Whatever state a run returns, the host reads every
register, `pc`, the flags, every cell and the output of it; in Ready and Running it reads none of them and there is no fault
report and no outcome; and while Running it cannot load. -/
def Obligations.HostReadsTheStateOnlyAfterARun : Prop :=
  (∀ (s t : State) (n : Nat), s.runFuel n = some t → ∃ v, t.inspect = some v ∧
    (∀ r : RegIx, v.reg r = t.reg r) ∧ v.pc = t.pc ∧ v.flags = t.flags ∧
    (∀ a : Addr, v.cell a = t.readByte a) ∧ v.out = t.out) ∧
  (∀ s : State, s.live → s.inspect = none ∧ s.faultReport = none ∧ s.outcome = none) ∧
  (∀ (s : State) (bytes : List Byte), s.status = .running → s.load bytes = .error .notReady)

/-- Inspection and the outcome show the host the whole state after a run (R89, R142): two states that meet the invariant, have
the same outcome and read alike are equal, so no state is left that the host could not see (R38). -/
def Obligations.InspectionShowsTheWholeState : Prop :=
  ∀ (s t : State) (u v : Inspection), s.Inv → t.Inv → s.inspect = some u → t.inspect = some v →
    s.outcome = t.outcome → (∀ r : RegIx, u.reg r = v.reg r) → u.pc = v.pc → u.flags = v.flags →
    (∀ a : Addr, u.cell a = v.cell a) → u.out = v.out → s = t

/-! ## Any opcode map -/

/-- The parameter `OPCODE` reaches the run (R9). Under every map with distinct values: the bytes of an instruction at `pc`
make a step run it, and a byte that is none of the 13 raises InvalidOpcode; under every map a run returns the state its steps
reach; and with the values of R66 (the spec's decision D1, log 5) and the default reset values, step, run and machine are those
of CORE. A step in Ready is log 3, one after Halted or Faulted log 2, a run called in Running log 25; that a fault changes
nothing else is D11 (log 12), the match of the whole byte D2 (log 26). -/
def Obligations.AnyOpcodeMapRuns : Prop :=
  (∀ (op : Opcodes) (s : State) (i : Instr), op.Distinct → s.live →
    (∀ k b, (encodeWith op i)[k]? = some b → s.mem.byteAt? (s.pc + k) = some b) →
      stepWith op s = exec i s.begun) ∧
  (∀ (op : Opcodes) (s : State) (b : Byte), s.live → s.mem.byteAt? s.pc = some b → b ∉ op.all →
    stepWith op s = .next (s.faultedWith ⟨.invalidOpcode, s.pc, some b, b.toNat⟩)) ∧
  (∀ (op : Opcodes) (p : ResetParams) (s t : State), (∃ n, s.runFuelWith op n = some t) ↔
    ∃ k : Nat, (coreWith op p).run k s = .next t ∧ t.status.isFinal = true) ∧
  (∀ (s : State) (n : Nat), stepWith OPCODE s = step s ∧ s.runFuelWith OPCODE n = s.runFuel n) ∧
  coreWith OPCODE resetParams = Sys2Proof.core

/-! ## Sequences of instructions -/

/-- R104: ADD and MUL complete and write no flag, and the flags keep the values that the last CMP, or reset, left, whatever other
instructions run after it. -/
def Obligations.FlagsKeepWhatTheLastCompareLeft : Prop :=
  (∀ (a b : RegIx) (s : State), ∃ t, exec (.add (regByte a) (regByte b)) s = .next t ∧ t.flags = s.flags) ∧
  (∀ (a b : RegIx) (s : State), ∃ t, exec (.mul (regByte a) (regByte b)) s = .next t ∧ t.flags = s.flags) ∧
  (∀ (before after : List Instr) (x y : Byte) (s u : State), Executes (before ++ .cmp x y :: after) s u →
    (∀ i ∈ after, ∀ a b, i ≠ .cmp a b) →
      ∃ v t, Executes before s v ∧ exec (.cmp x y) v = .next t ∧ Executes after t u ∧ u.flags = t.flags) ∧
  (∀ (p : ResetParams) (is : List Instr) (u : State), Executes is (State.resetWith p).begun u →
    (∀ i ∈ is, ∀ a b, i ≠ .cmp a b) → u.flags = (State.resetWith p).flags)

/-- R109: JMP, and JEQ and JNE when taken, complete with `pc` the absolute address the register holds, inside memory, and no
register (so no link register), cell or status written; where the byte at the target is no opcode, whatever the opcode map, it
is the very next step that raises, InvalidOpcode with `pc` the target and that byte (R126), and not the jump. -/
def Obligations.JumpFaultsOnlyAtItsTarget : Prop :=
  ∀ (op : Opcodes) (r : RegIx) (i : Instr) (s : State), s.status = .running →
    (i = .jmp (regByte r) ∨ (i = .jeq (regByte r) ∧ s.flags.e = true) ∨
      (i = .jne (regByte r) ∧ s.flags.e = false)) →
    ∃ t, exec i s = .next t ∧ t.pc = (s.reg r).toNat ∧ t.pc ≤ 255 ∧ t.status = .running ∧
      SameRegsBut [] s t ∧ SameMemory s t ∧
      (s.readByte (s.reg r) ∉ op.all → ∃ u, stepWith op t = .next u ∧ u.status = .faulted ∧
        u.fault = some ⟨.invalidOpcode, (s.reg r).toNat, some (s.readByte (s.reg r)),
          (s.readByte (s.reg r)).toNat⟩)
end

