-- ==== Sys2Proof/Laws/Decode.lean ====
section
/-! SUPPORT. Looking an opcode up in the table, and what each row's format reads. -/

namespace Sys2Proof

theorem formatIn_mem {rows : List (Byte × Format)} {b : Byte} {f : Format}
    (h : formatIn rows b = some f) : (b, f) ∈ rows := by
  induction rows with
  | nil => cases h
  | cons c rows ih =>
    simp only [formatIn] at h
    split at h
    · next hb =>
      cases h
      rw [hb]
      exact List.mem_cons_self
    · exact List.mem_cons_of_mem _ (ih h)

theorem formatIn_none {rows : List (Byte × Format)} {b : Byte} :
    formatIn rows b = none ↔ b ∉ rows.map Prod.fst := by
  induction rows with
  | nil => simp [formatIn]
  | cons c rows ih =>
    simp only [formatIn, List.map_cons, List.mem_cons, not_or]
    split
    · next hb => simp [hb]
    · next hb => simp only [ih, hb, not_false_eq_true, true_and]

/-- In a table with distinct opcodes, a row is the one its opcode finds. -/
theorem formatIn_of_mem {rows : List (Byte × Format)} {b : Byte} {f : Format}
    (hd : (rows.map Prod.fst).Nodup) (h : (b, f) ∈ rows) : formatIn rows b = some f := by
  induction rows with
  | nil => cases h
  | cons c rows ih =>
    simp only [List.map_cons, List.nodup_cons] at hd
    simp only [formatIn]
    rcases List.mem_cons.1 h with h | h
    · rw [← h, if_pos rfl]
    · rw [if_neg, ih hd.2 h]
      rintro rfl
      exact hd.1 (List.mem_map.2 ⟨_, h, rfl⟩)

/-- The opcodes of the table are the opcodes of the map. -/
theorem rows_opcodes (op : Opcodes) : op.rows.map Prod.fst = op.all := rfl

/-- What a format reads: as many operand bytes as its width says, or it is truncated. -/
theorem read_ok {f : Format} {b : Byte} {bytes rest : List Byte} {i : Instr}
    (h : f.read b bytes = .ok (i, rest)) :
    (f = .f0 i ∧ bytes = rest) ∨ (∃ mk x, f = .f1 mk ∧ i = mk x ∧ bytes = x :: rest) ∨
      (∃ mk x y, f = .f2 mk ∧ i = mk x y ∧ bytes = x :: y :: rest) := by
  match f, bytes, h with
  | .f0 _, _, h => cases h; exact .inl ⟨rfl, rfl⟩
  | .f1 _, [], h => cases h
  | .f1 mk, x :: _, h => cases h; exact .inr (.inl ⟨mk, x, rfl, rfl, rfl⟩)
  | .f2 _, [], h => cases h
  | .f2 _, [_], h => cases h
  | .f2 mk, x :: y :: _, h => cases h; exact .inr (.inr ⟨mk, x, y, rfl, rfl, rfl⟩)

/-- A format is truncated exactly where fewer bytes than its width are left (R94). -/
theorem read_error {f : Format} {b : Byte} {bytes : List Byte} {e : DecodeError} :
    f.read b bytes = .error e ↔ e = .truncated b ∧ bytes.length + 1 < f.width := by
  match f, bytes with
  | .f0 _, _ => simp [Format.read, Format.width]
  | .f1 _, [] => simp [Format.read, Format.width, eq_comm]
  | .f1 _, _ :: _ => simp [Format.read, Format.width]
  | .f2 _, [] => simp [Format.read, Format.width, eq_comm]
  | .f2 _, [_] => simp [Format.read, Format.width, eq_comm]
  | .f2 _, _ :: _ :: _ => simp [Format.read, Format.width]

/-- Decoding looks the first byte up and reads its format, or rejects it by name. -/
theorem decodeWith_some {op : Opcodes} {b : Byte} {f : Format} (h : formatIn op.rows b = some f)
    (rest : List Byte) : decodeWith op (b :: rest) = f.read b rest := by
  simp only [decodeWith, h]

theorem decodeWith_none {op : Opcodes} {b : Byte} (h : formatIn op.rows b = none) (rest : List Byte) :
    decodeWith op (b :: rest) = .error (.invalidOpcode b) := by
  simp only [decodeWith, h]

/-- The row of an instruction's opcode. -/
theorem opcode_row (op : Opcodes) (i : Instr) :
    ∃ f, (i.opcodeWith op, f) ∈ op.rows ∧ f.width = i.width ∧
      ∀ b rest, f.read b (i.operandBytes ++ rest) = .ok (i, rest) := by
  cases i with
  | hlt => exact ⟨.f0 .hlt, by simp [Instr.opcodeWith, Opcodes.rows], rfl, fun _ _ => rfl⟩
  | ret => exact ⟨.f0 .ret, by simp [Instr.opcodeWith, Opcodes.rows], rfl, fun _ _ => rfl⟩
  | ldi _ _ => exact ⟨.f2 .ldi, by simp [Instr.opcodeWith, Opcodes.rows], rfl, fun _ _ => rfl⟩
  | add _ _ => exact ⟨.f2 .add, by simp [Instr.opcodeWith, Opcodes.rows], rfl, fun _ _ => rfl⟩
  | mul _ _ => exact ⟨.f2 .mul, by simp [Instr.opcodeWith, Opcodes.rows], rfl, fun _ _ => rfl⟩
  | cmp _ _ => exact ⟨.f2 .cmp, by simp [Instr.opcodeWith, Opcodes.rows], rfl, fun _ _ => rfl⟩
  | prn _ => exact ⟨.f1 .prn, by simp [Instr.opcodeWith, Opcodes.rows], rfl, fun _ _ => rfl⟩
  | jmp _ => exact ⟨.f1 .jmp, by simp [Instr.opcodeWith, Opcodes.rows], rfl, fun _ _ => rfl⟩
  | jeq _ => exact ⟨.f1 .jeq, by simp [Instr.opcodeWith, Opcodes.rows], rfl, fun _ _ => rfl⟩
  | jne _ => exact ⟨.f1 .jne, by simp [Instr.opcodeWith, Opcodes.rows], rfl, fun _ _ => rfl⟩
  | push _ => exact ⟨.f1 .push, by simp [Instr.opcodeWith, Opcodes.rows], rfl, fun _ _ => rfl⟩
  | pop _ => exact ⟨.f1 .pop, by simp [Instr.opcodeWith, Opcodes.rows], rfl, fun _ _ => rfl⟩
  | call _ => exact ⟨.f1 .call, by simp [Instr.opcodeWith, Opcodes.rows], rfl, fun _ _ => rfl⟩

end Sys2Proof
end

