-- ==== Sys2Proof/Laws/Memory.lean ====
section
/-! SUPPORT. The laws of the memory array: read after write, and that every operation keeps the canonical form. -/

namespace Sys2Proof.Machine.Memory

theorem lookup_without_same (m : Memory) (a : Nat) : (m.without a).lookup a = unlisted := by
  induction m with
  | nil => rfl
  | cons c m ih =>
    by_cases h : c.1 = a
    · simpa [without, List.filter_cons, h] using ih
    · simpa [without, List.filter_cons, h, lookup] using ih

theorem lookup_without_ne (m : Memory) {a b : Nat} (h : b ≠ a) :
    (m.without a).lookup b = m.lookup b := by
  induction m with
  | nil => rfl
  | cons c m ih =>
    simp only [without, List.filter_cons, lookup] at ih ⊢
    by_cases hc : c.1 = a
    · have hb : c.1 ≠ b := fun h' => h (h'.symm.trans hc)
      rw [if_neg (by simp [hc]), if_neg hb, ih]
    · rw [if_pos (by simpa using hc)]
      simp only [lookup, ih]

theorem lookup_insert (m : Memory) (a b : Nat) (v : Byte) (h : ∀ c ∈ m, c.1 ≠ a) :
    (m.insert a v).lookup b = if a = b then v else m.lookup b := by
  induction m with
  | nil => rfl
  | cons c m ih =>
    have hm := ih (fun d hd => h d (List.mem_cons_of_mem _ hd))
    have hc : c.1 ≠ a := h c List.mem_cons_self
    simp only [insert]
    split
    · simp only [lookup]
    · simp only [lookup, hm]
      by_cases hb : c.1 = b
      · have : ¬ a = b := fun h' => hc (hb.trans h'.symm)
        simp [hb, this]
      · simp [hb]

theorem mem_without {m : Memory} {a : Nat} {c : Host.Cell} :
    c ∈ m.without a ↔ c ∈ m ∧ c.1 ≠ a := by
  simp [without]

/-- A read of the cell just written gives the value written. -/
@[simp] theorem read_write_same (m : Memory) (a : Addr) (v : Byte) : (m.write a v).read a = v := by
  unfold write read
  split
  · next h => rw [lookup_without_same, h]
  · rw [lookup_insert _ _ _ _ (fun c hc => (mem_without.1 hc).2), if_pos rfl]

/-- A write leaves every other cell as it was (R52). -/
theorem read_write_ne (m : Memory) {a b : Addr} (v : Byte) (h : b ≠ a) :
    (m.write a v).read b = m.read b := by
  have hn : b.toNat ≠ a.toNat := fun h' => h (BitVec.eq_of_toNat_eq h')
  unfold write read
  split
  · exact lookup_without_ne m hn
  · rw [lookup_insert _ _ _ _ (fun c hc => (mem_without.1 hc).2), if_neg (Ne.symm hn),
      lookup_without_ne m hn]

theorem read_write (m : Memory) (a b : Addr) (v : Byte) :
    (m.write a v).read b = if b = a then v else m.read b := by
  split
  · next h => rw [h, read_write_same]
  · next h => exact read_write_ne m v h

theorem without_wf {m : Memory} (h : m.wf) (a : Nat) : (m.without a).wf :=
  ⟨h.1.filter _, fun c hc => h.2 c (mem_without.1 hc).1⟩

theorem mem_insert {m : Memory} {a : Nat} {v : Byte} {c : Host.Cell} (h : c ∈ m.insert a v) :
    c = (a, v) ∨ c ∈ m := by
  induction m with
  | nil => simpa [insert] using h
  | cons d m ih =>
    simp only [insert] at h
    split at h
    · simpa using h
    · rcases List.mem_cons.1 h with h | h
      · exact .inr (h ▸ List.mem_cons_self)
      · exact (ih h).imp_right (List.mem_cons_of_mem _)

theorem insert_sorted {m : Memory} {a : Nat} {v : Byte}
    (hs : m.Pairwise (fun c d => c.1 < d.1)) (ha : ∀ c ∈ m, c.1 ≠ a) :
    (m.insert a v).Pairwise (fun c d => c.1 < d.1) := by
  induction m with
  | nil => simp [insert]
  | cons c m ih =>
    have ⟨hc, hm⟩ := List.pairwise_cons.1 hs
    have hca : c.1 ≠ a := ha c List.mem_cons_self
    simp only [insert]
    split
    · next hlt =>
      refine List.pairwise_cons.2 ⟨fun d hd => ?_, hs⟩
      rcases List.mem_cons.1 hd with rfl | hd
      · exact hlt
      · exact hlt.trans (hc d hd)
    · next hge =>
      refine List.pairwise_cons.2 ⟨fun d hd => ?_, ih hm (fun d hd => ha d (List.mem_cons_of_mem _ hd))⟩
      rcases mem_insert hd with rfl | hd
      · exact lt_of_le_of_ne (not_lt.1 hge) hca
      · exact hc d hd

/-- A write keeps the canonical form. -/
theorem write_wf {m : Memory} (h : m.wf) (a : Addr) (v : Byte) : (m.write a v).wf := by
  unfold write
  split
  · exact without_wf h _
  · next hv =>
    have hw := without_wf h a.toNat
    refine ⟨insert_sorted hw.1 (fun c hc => (mem_without.1 hc).2), fun c hc => ?_⟩
    rcases mem_insert hc with rfl | hc
    · exact ⟨a.isLt, hv⟩
    · exact hw.2 c hc

/-- Loading bytes keeps the canonical form. -/
theorem writeFrom_wf {m : Memory} (h : m.wf) (n : Nat) (bytes : List Byte) : (m.writeFrom n bytes).wf := by
  induction bytes generalizing m n with
  | nil => exact h
  | cons b bytes ih => exact ih (write_wf h _ _) _

/-- A filled memory is in canonical form. -/
theorem filled_wf (v : Byte) : (filled v).wf := by
  unfold filled
  split
  · exact ⟨List.Pairwise.nil, by simp⟩
  · next hv =>
    refine ⟨?_, ?_⟩
    · rw [List.pairwise_map]
      exact List.pairwise_lt_range
    · intro c hc
      obtain ⟨a, ha, rfl⟩ := List.mem_map.1 hc
      exact ⟨List.mem_range.1 ha, hv⟩

/-- There is a byte at every number below 256, and none above (R46). -/
theorem byteAt?_of_lt (m : Memory) {n : Nat} (h : n < memSize) :
    m.byteAt? n = some (m.read (BitVec.ofNat 8 n)) := if_pos h

theorem byteAt?_of_ge (m : Memory) {n : Nat} (h : memSize ≤ n) : m.byteAt? n = none :=
  if_neg (Nat.not_lt.2 h)

theorem byteAt?_eq_none (m : Memory) (n : Nat) : m.byteAt? n = none ↔ memSize ≤ n := by
  unfold byteAt?
  split <;> simp <;> omega

theorem byteAt?_toNat (m : Memory) (a : Addr) : m.byteAt? a.toNat = some (m.read a) := by
  rw [byteAt?_of_lt m a.isLt, BitVec.ofNat_toNat, BitVec.setWidth_eq]

/-- Loading bytes from cell `n` on leaves the cells below `n` alone. -/
theorem read_writeFrom_below (m : Memory) (n : Nat) (bytes : List Byte) (a : Addr)
    (ha : a.toNat < n) (hn : n + bytes.length ≤ memSize) : (m.writeFrom n bytes).read a = m.read a := by
  induction bytes generalizing m n with
  | nil => rfl
  | cons b bytes ih =>
    simp only [List.length_cons, memSize] at hn ih
    simp only [writeFrom]
    rw [ih _ (n + 1) (by omega) (by omega), read_write_ne]
    intro h
    have h' := congrArg BitVec.toNat h
    simp only [BitVec.toNat_ofNat] at h'
    omega

end Sys2Proof.Machine.Memory
end

