-- ==== Sys2Proof/Laws/State.lean ====
section
/-! SUPPORT. One lemma per field per update of State, each by rfl, and what a register read gives after each. -/

namespace Sys2Proof.Machine.State

variable (s : State)

@[simp] theorem setReg_x (i : RegIx) (v : Byte) :
    (s.setReg i v).x = s.x.set i.val v := rfl
@[simp] theorem setReg_pc (i : RegIx) (v : Byte) :
    (s.setReg i v).pc = s.pc := rfl
@[simp] theorem setReg_flags (i : RegIx) (v : Byte) :
    (s.setReg i v).flags = s.flags := rfl
@[simp] theorem setReg_mem (i : RegIx) (v : Byte) :
    (s.setReg i v).mem = s.mem := rfl
@[simp] theorem setReg_status (i : RegIx) (v : Byte) :
    (s.setReg i v).status = s.status := rfl
@[simp] theorem setReg_fault (i : RegIx) (v : Byte) :
    (s.setReg i v).fault = s.fault := rfl
@[simp] theorem setReg_out (i : RegIx) (v : Byte) :
    (s.setReg i v).out = s.out := rfl

@[simp] theorem setSP_x (v : Byte) :
    (s.setSP v).x = s.x.set 7 v := rfl
@[simp] theorem setSP_pc (v : Byte) :
    (s.setSP v).pc = s.pc := rfl
@[simp] theorem setSP_flags (v : Byte) :
    (s.setSP v).flags = s.flags := rfl
@[simp] theorem setSP_mem (v : Byte) :
    (s.setSP v).mem = s.mem := rfl
@[simp] theorem setSP_status (v : Byte) :
    (s.setSP v).status = s.status := rfl
@[simp] theorem setSP_fault (v : Byte) :
    (s.setSP v).fault = s.fault := rfl
@[simp] theorem setSP_out (v : Byte) :
    (s.setSP v).out = s.out := rfl

@[simp] theorem setPc_x (n : Nat) :
    (s.setPc n).x = s.x := rfl
@[simp] theorem setPc_pc (n : Nat) :
    (s.setPc n).pc = n := rfl
@[simp] theorem setPc_flags (n : Nat) :
    (s.setPc n).flags = s.flags := rfl
@[simp] theorem setPc_mem (n : Nat) :
    (s.setPc n).mem = s.mem := rfl
@[simp] theorem setPc_status (n : Nat) :
    (s.setPc n).status = s.status := rfl
@[simp] theorem setPc_fault (n : Nat) :
    (s.setPc n).fault = s.fault := rfl
@[simp] theorem setPc_out (n : Nat) :
    (s.setPc n).out = s.out := rfl

@[simp] theorem advance_x (w : Nat) :
    (s.advance w).x = s.x := rfl
@[simp] theorem advance_pc (w : Nat) :
    (s.advance w).pc = s.pc + w := rfl
@[simp] theorem advance_flags (w : Nat) :
    (s.advance w).flags = s.flags := rfl
@[simp] theorem advance_mem (w : Nat) :
    (s.advance w).mem = s.mem := rfl
@[simp] theorem advance_status (w : Nat) :
    (s.advance w).status = s.status := rfl
@[simp] theorem advance_fault (w : Nat) :
    (s.advance w).fault = s.fault := rfl
@[simp] theorem advance_out (w : Nat) :
    (s.advance w).out = s.out := rfl

@[simp] theorem setFlags_x (f : Flags) :
    (s.setFlags f).x = s.x := rfl
@[simp] theorem setFlags_pc (f : Flags) :
    (s.setFlags f).pc = s.pc := rfl
@[simp] theorem setFlags_flags (f : Flags) :
    (s.setFlags f).flags = f := rfl
@[simp] theorem setFlags_mem (f : Flags) :
    (s.setFlags f).mem = s.mem := rfl
@[simp] theorem setFlags_status (f : Flags) :
    (s.setFlags f).status = s.status := rfl
@[simp] theorem setFlags_fault (f : Flags) :
    (s.setFlags f).fault = s.fault := rfl
@[simp] theorem setFlags_out (f : Flags) :
    (s.setFlags f).out = s.out := rfl

@[simp] theorem writeByte_x (a : Addr) (v : Byte) :
    (s.writeByte a v).x = s.x := rfl
@[simp] theorem writeByte_pc (a : Addr) (v : Byte) :
    (s.writeByte a v).pc = s.pc := rfl
@[simp] theorem writeByte_flags (a : Addr) (v : Byte) :
    (s.writeByte a v).flags = s.flags := rfl
@[simp] theorem writeByte_mem (a : Addr) (v : Byte) :
    (s.writeByte a v).mem = s.mem.write a v := rfl
@[simp] theorem writeByte_status (a : Addr) (v : Byte) :
    (s.writeByte a v).status = s.status := rfl
@[simp] theorem writeByte_fault (a : Addr) (v : Byte) :
    (s.writeByte a v).fault = s.fault := rfl
@[simp] theorem writeByte_out (a : Addr) (v : Byte) :
    (s.writeByte a v).out = s.out := rfl

@[simp] theorem storeTop_x (v : Byte) :
    (s.storeTop v).x = s.x := rfl
@[simp] theorem storeTop_pc (v : Byte) :
    (s.storeTop v).pc = s.pc := rfl
@[simp] theorem storeTop_flags (v : Byte) :
    (s.storeTop v).flags = s.flags := rfl
@[simp] theorem storeTop_mem (v : Byte) :
    (s.storeTop v).mem = s.mem.write s.sp v := rfl
@[simp] theorem storeTop_status (v : Byte) :
    (s.storeTop v).status = s.status := rfl
@[simp] theorem storeTop_fault (v : Byte) :
    (s.storeTop v).fault = s.fault := rfl
@[simp] theorem storeTop_out (v : Byte) :
    (s.storeTop v).out = s.out := rfl

@[simp] theorem emit_x (v : Byte) :
    (s.emit v).x = s.x := rfl
@[simp] theorem emit_pc (v : Byte) :
    (s.emit v).pc = s.pc := rfl
@[simp] theorem emit_flags (v : Byte) :
    (s.emit v).flags = s.flags := rfl
@[simp] theorem emit_mem (v : Byte) :
    (s.emit v).mem = s.mem := rfl
@[simp] theorem emit_status (v : Byte) :
    (s.emit v).status = s.status := rfl
@[simp] theorem emit_fault (v : Byte) :
    (s.emit v).fault = s.fault := rfl
@[simp] theorem emit_out (v : Byte) :
    (s.emit v).out = s.out ++ [v] := rfl

@[simp] theorem setStatus_x (t : Status) :
    (s.setStatus t).x = s.x := rfl
@[simp] theorem setStatus_pc (t : Status) :
    (s.setStatus t).pc = s.pc := rfl
@[simp] theorem setStatus_flags (t : Status) :
    (s.setStatus t).flags = s.flags := rfl
@[simp] theorem setStatus_mem (t : Status) :
    (s.setStatus t).mem = s.mem := rfl
@[simp] theorem setStatus_status (t : Status) :
    (s.setStatus t).status = t := rfl
@[simp] theorem setStatus_fault (t : Status) :
    (s.setStatus t).fault = s.fault := rfl
@[simp] theorem setStatus_out (t : Status) :
    (s.setStatus t).out = s.out := rfl

@[simp] theorem decSP_x :
    (s.decSP).x = s.x.set 7 (s.sp - 1) := rfl
@[simp] theorem decSP_pc :
    (s.decSP).pc = s.pc := rfl
@[simp] theorem decSP_flags :
    (s.decSP).flags = s.flags := rfl
@[simp] theorem decSP_mem :
    (s.decSP).mem = s.mem := rfl
@[simp] theorem decSP_status :
    (s.decSP).status = s.status := rfl
@[simp] theorem decSP_fault :
    (s.decSP).fault = s.fault := rfl
@[simp] theorem decSP_out :
    (s.decSP).out = s.out := rfl

@[simp] theorem incSP_x :
    (s.incSP).x = s.x.set 7 (s.sp + 1) := rfl
@[simp] theorem incSP_pc :
    (s.incSP).pc = s.pc := rfl
@[simp] theorem incSP_flags :
    (s.incSP).flags = s.flags := rfl
@[simp] theorem incSP_mem :
    (s.incSP).mem = s.mem := rfl
@[simp] theorem incSP_status :
    (s.incSP).status = s.status := rfl
@[simp] theorem incSP_fault :
    (s.incSP).fault = s.fault := rfl
@[simp] theorem incSP_out :
    (s.incSP).out = s.out := rfl

@[simp] theorem raise_x (k : FaultKind) (d : Nat) :
    (s.raise k d).x = s.x := rfl
@[simp] theorem raise_pc (k : FaultKind) (d : Nat) :
    (s.raise k d).pc = s.pc := rfl
@[simp] theorem raise_flags (k : FaultKind) (d : Nat) :
    (s.raise k d).flags = s.flags := rfl
@[simp] theorem raise_mem (k : FaultKind) (d : Nat) :
    (s.raise k d).mem = s.mem := rfl
@[simp] theorem raise_status (k : FaultKind) (d : Nat) :
    (s.raise k d).status = Status.faulted := rfl
@[simp] theorem raise_fault (k : FaultKind) (d : Nat) :
    (s.raise k d).fault = some { kind := k, pc := s.pc, opcode := s.mem.byteAt? s.pc, detail := d } := rfl
@[simp] theorem raise_out (k : FaultKind) (d : Nat) :
    (s.raise k d).out = s.out := rfl

theorem reg_setReg (i j : RegIx) (v : Byte) : (s.setReg i v).reg j = if j = i then v else s.reg j := by
  simp only [reg, setReg, Vector.getElem_set, Fin.ext_iff, eq_comm]

@[simp] theorem reg_setReg_same (i : RegIx) (v : Byte) : (s.setReg i v).reg i = v := by
  rw [reg_setReg, if_pos rfl]

theorem reg_setReg_ne {i j : RegIx} (v : Byte) (h : j ≠ i) : (s.setReg i v).reg j = s.reg j := by
  rw [reg_setReg, if_neg h]

@[simp] theorem reg_setPc (r : RegIx) (n : Nat) :
    (s.setPc n).reg r = s.reg r := rfl
@[simp] theorem sp_setPc (n : Nat) : (s.setPc n).sp = s.sp := rfl
@[simp] theorem reg_advance (r : RegIx) (w : Nat) :
    (s.advance w).reg r = s.reg r := rfl
@[simp] theorem sp_advance (w : Nat) : (s.advance w).sp = s.sp := rfl
@[simp] theorem reg_setFlags (r : RegIx) (f : Flags) :
    (s.setFlags f).reg r = s.reg r := rfl
@[simp] theorem sp_setFlags (f : Flags) : (s.setFlags f).sp = s.sp := rfl
@[simp] theorem reg_writeByte (r : RegIx) (a : Addr) (v : Byte) :
    (s.writeByte a v).reg r = s.reg r := rfl
@[simp] theorem sp_writeByte (a : Addr) (v : Byte) : (s.writeByte a v).sp = s.sp := rfl
@[simp] theorem reg_storeTop (r : RegIx) (v : Byte) :
    (s.storeTop v).reg r = s.reg r := rfl
@[simp] theorem sp_storeTop (v : Byte) : (s.storeTop v).sp = s.sp := rfl
@[simp] theorem reg_emit (r : RegIx) (v : Byte) :
    (s.emit v).reg r = s.reg r := rfl
@[simp] theorem sp_emit (v : Byte) : (s.emit v).sp = s.sp := rfl
@[simp] theorem reg_setStatus (r : RegIx) (t : Status) :
    (s.setStatus t).reg r = s.reg r := rfl
@[simp] theorem sp_setStatus (t : Status) : (s.setStatus t).sp = s.sp := rfl
@[simp] theorem reg_raise (r : RegIx) (k : FaultKind) (d : Nat) :
    (s.raise k d).reg r = s.reg r := rfl
@[simp] theorem sp_raise (k : FaultKind) (d : Nat) : (s.raise k d).sp = s.sp := rfl

theorem sp_eq : s.sp = s.reg spIx := rfl

theorem sp_setReg (i : RegIx) (v : Byte) : (s.setReg i v).sp = if i = spIx then v else s.sp := by
  rw [sp_eq, sp_eq, reg_setReg]
  simp only [eq_comm]

@[simp] theorem sp_setSP (v : Byte) : (s.setSP v).sp = v := reg_setReg_same s spIx v

@[simp] theorem sp_decSP : s.decSP.sp = s.sp - 1 := sp_setSP s _

@[simp] theorem sp_incSP : s.incSP.sp = s.sp + 1 := sp_setSP s _

@[simp] theorem pushAddr_eq : s.pushAddr = s.sp - 1 := sp_decSP s

theorem reg_decSP (r : RegIx) : s.decSP.reg r = if r = spIx then s.sp - 1 else s.reg r :=
  reg_setReg s spIx r _

theorem reg_incSP (r : RegIx) : s.incSP.reg r = if r = spIx then s.sp + 1 else s.reg r :=
  reg_setReg s spIx r _

end Sys2Proof.Machine.State
end

