-- ==== Sys2Proof/Laws/Ops.lean ====
section
/-! SUPPORT. One lemma per shared operation: everything it can do. Operands, branches, the bytes a fetch reads, the fetch, the start of a step, reachability. -/

namespace Sys2Proof.Machine

theorem regIndex?_of_lt {b : Byte} (h : b.toNat < 8) : regIndex? b = some ⟨b.toNat, h⟩ := dif_pos h

/-- A valid encoding names its register (R70). -/
@[simp] theorem regIndex?_regByte (r : RegIx) : regIndex? (regByte r) = some r := by
  have hr := r.isLt
  have hn : (regByte r).toNat = r.val := by
    simp only [regByte, BitVec.toNat_ofNat]
    omega
  unfold regIndex?
  split
  · simp [hn]
  · omega

theorem regIndex?_eq_some {b : Byte} {r : RegIx} : regIndex? b = some r ↔ b = regByte r := by
  refine ⟨fun h => ?_, fun h => h ▸ regIndex?_regByte r⟩
  unfold regIndex? at h
  split at h
  · simp only [Option.some.injEq] at h
    subst h
    simp [regByte]
  · cases h

/-- An operand byte of 8 and above names no register (R70), and no other does. -/
theorem regIndex?_eq_none {b : Byte} : regIndex? b = none ↔ validIndex b = false := by
  unfold regIndex? validIndex
  split <;> simp_all

theorem withReg_some {ra : Byte} {r : RegIx} (h : regIndex? ra = some r) (s : State)
    (run : RegIx → Result) : withReg ra s run = run r := by
  simp only [withReg, h]

theorem withReg_none {ra : Byte} (h : regIndex? ra = none) (s : State) (run : RegIx → Result) :
    withReg ra s run = .next (s.raise (.outOfBounds .register) ra.toNat) := by
  simp only [withReg, h, trap]

@[simp] theorem withReg_regByte (r : RegIx) (s : State) (run : RegIx → Result) :
    withReg (regByte r) s run = run r := withReg_some (regIndex?_regByte r) s run

@[simp] theorem withRegs_regByte (r q : RegIx) (s : State) (run : RegIx → RegIx → Result) :
    withRegs (regByte r) (regByte q) s run = run r q := by
  simp only [withRegs, withReg_regByte]

/-- An instruction with one register operand either names a register and runs, or raises. -/
theorem withReg_next {ra : Byte} {s t : State} {run : RegIx → Result}
    (h : withReg ra s run = .next t) :
    (∃ r, ra = regByte r ∧ run r = .next t) ∨
      (validIndex ra = false ∧ t = s.raise (.outOfBounds .register) ra.toNat) := by
  cases hr : regIndex? ra with
  | some r => exact .inl ⟨r, regIndex?_eq_some.1 hr, by rwa [withReg_some hr] at h⟩
  | none =>
    rw [withReg_none hr] at h
    exact .inr ⟨regIndex?_eq_none.1 hr, (Host.Outcome.next.inj h).symm⟩

/-- An instruction with two register operands either names two registers and runs, or raises for Ra, or raises
for Rb (R130). -/
theorem withRegs_next {ra rb : Byte} {s t : State} {run : RegIx → RegIx → Result}
    (h : withRegs ra rb s run = .next t) :
    (∃ r q, ra = regByte r ∧ rb = regByte q ∧ run r q = .next t) ∨
      (validIndex ra = false ∧ t = s.raise (.outOfBounds .register) ra.toNat) ∨
      (validIndex ra = true ∧ validIndex rb = false ∧
        t = s.raise (.outOfBounds .register) rb.toNat) := by
  cases hr : regIndex? ra with
  | some r =>
    obtain rfl := regIndex?_eq_some.1 hr
    have hv : validIndex (regByte r) = true := by
      cases hv : validIndex (regByte r) with
      | true => rfl
      | false => rw [← regIndex?_eq_none, hr] at hv; cases hv
    rw [withRegs, withReg_regByte] at h
    exact (withReg_next h).imp (fun ⟨q, hq, h⟩ => ⟨r, q, rfl, hq, h⟩) fun h => .inr ⟨hv, h⟩
  | none =>
    rw [withRegs, withReg_none hr] at h
    exact .inr (.inl ⟨regIndex?_eq_none.1 hr, (Host.Outcome.next.inj h).symm⟩)

/-- A branch names a register and jumps or advances by 2, or raises. -/
theorem branch_next {taken : Bool} {ra : Byte} {s t : State} (h : branch taken ra s = .next t) :
    (∃ r, ra = regByte r ∧ t = if taken then s.setPc (s.reg r).toNat else s.advance 2) ∨
      (validIndex ra = false ∧ t = s.raise (.outOfBounds .register) ra.toNat) :=
  (withReg_next h).imp_left fun ⟨r, hr, h⟩ => ⟨r, hr, (Host.Outcome.next.inj h).symm⟩

/-- A fetch reads nothing past memory (R91). -/
theorem bytesFrom_past (m : Memory) (count : Nat) {n : Nat} (h : 255 < n) : m.bytesFrom count n = [] := by
  cases count with
  | zero => rfl
  | succ k => simp only [Memory.bytesFrom, m.byteAt?_of_ge (show memSize ≤ n from h)]

/-- A fetch reads the cell at `n` first (R92). -/
theorem bytesFrom_cons (m : Memory) (count : Nat) {n : Nat} {b : Byte} (h : m.byteAt? n = some b) :
    m.bytesFrom (count + 1) n = b :: m.bytesFrom count (n + 1) := by
  simp only [Memory.bytesFrom, h]

/-- A fetch of an instruction is a decoding of the bytes at `pc`. -/
theorem fetchWith_ok {op : Opcodes} {s : State} {i : Instr} :
    fetchWith op s = .ok i ↔ ∃ rest, decodeWith op (s.mem.bytesFrom 3 s.pc) = .ok (i, rest) := by
  unfold fetchWith
  cases decodeWith op (s.mem.bytesFrom 3 s.pc) with
  | ok p =>
    obtain ⟨j, rest⟩ := p
    constructor
    · rintro h
      cases h
      exact ⟨rest, rfl⟩
    · rintro ⟨r, h⟩
      cases h
      rfl
  | error e =>
    constructor
    · intro h
      cases h
    · rintro ⟨_, h⟩
      cases h

/-- A fetch that raises does so for the reason decoding gives. -/
theorem fetchWith_error {op : Opcodes} {s : State} {e : DecodeError}
    (h : decodeWith op (s.mem.bytesFrom 3 s.pc) = .error e) :
    fetchWith op s = .error (fetchFault s.pc e) := by
  simp only [fetchWith, h]

@[simp] theorem begun_x (s : State) : s.begun.x = s.x := by unfold State.begun; split <;> rfl
@[simp] theorem begun_pc (s : State) : s.begun.pc = s.pc := by unfold State.begun; split <;> rfl
@[simp] theorem begun_flags (s : State) : s.begun.flags = s.flags := by unfold State.begun; split <;> rfl
@[simp] theorem begun_mem (s : State) : s.begun.mem = s.mem := by unfold State.begun; split <;> rfl
@[simp] theorem begun_fault (s : State) : s.begun.fault = s.fault := by unfold State.begun; split <;> rfl
@[simp] theorem begun_out (s : State) : s.begun.out = s.out := by unfold State.begun; split <;> rfl

theorem begun_status {s : State} (h : s.live) : s.begun.status = .running := by
  unfold State.begun
  rcases h with h | h <;> simp [h]

theorem begun_of_running {s : State} (h : s.status = .running) : s.begun = s := by
  unfold State.begun
  simp [h]

theorem fetchWith_begun (op : Opcodes) (s : State) : fetchWith op s.begun = fetchWith op s := by
  simp only [fetchWith, begun_mem, begun_pc]

/-- A live state steps by fetching and executing. -/
theorem step_of_live {s : State} (h : s.live) : step s = runStepWith OPCODE s.begun := by
  unfold step stepWith
  rcases h with h | h <;> simp [h]

/-- After reset, under any parameters, memory is in canonical form. -/
theorem resetWith_mem_wf (p : ResetParams) : (State.resetWith p).mem.wf := Memory.filled_wf _

theorem reset_mem_wf : State.reset.mem.wf := resetWith_mem_wf _

/-- What one property of every reachable state takes: reset has it, `load` and a step keep it. -/
theorem reachable_of_kept {P : State → Prop} (reset : P State.reset)
    (load : ∀ s t bytes, P s → s.load bytes = .ok t → P t) (keep : ∀ s t, P s → step s = .next t → P t)
    {s : State} (h : Reachable s) : P s := by
  induction h with
  | reset => exact reset
  | load _ hl ih => exact load _ _ _ ih hl
  | step _ hs ih => exact keep _ _ ih hs

end Sys2Proof.Machine
end

