-- ==== Sys2Proof/Laws/Exec.lean ====
section
/-! SUPPORT. The meanings of the stack and call instructions on valid operands, one equation each, cited instead of unfolding them; and, said once, everything `exec` and a step can do. -/

namespace Sys2Proof.Machine

theorem exec_push (r : RegIx) (s : State) :
    exec (.push (regByte r)) s =
      if s.sp = 0 then trap .stackOverflow s.sp.toNat s
      else .next ((s.decSP.storeTop (s.decSP.reg r)).advance 2) := by
  simp only [exec, execPush, withReg_regByte]

theorem exec_pop (r : RegIx) (s : State) :
    exec (.pop (regByte r)) s =
      if (s.loadInto r).sp.toNat + 1 > 255 then trap .stackUnderflow (s.loadInto r).sp.toNat s
      else .next ((s.loadInto r).incSP.advance 2) := by
  simp only [exec, execPop, withReg_regByte]

theorem exec_call (r : RegIx) (s : State) :
    exec (.call (regByte r)) s =
      if s.sp = 0 then trap .stackOverflow s.sp.toNat s
      else if s.returnAddress > 255 then trap (.outOfBounds .returnAddress) s.returnAddress s
      else .next (s.pushReturn.setPc (s.pushReturn.target r)) := by
  simp only [exec, execCall, withReg_regByte]

theorem exec_ret (s : State) :
    exec .ret s =
      if s.sp.toNat + 1 > 255 then trap .stackUnderflow s.sp.toNat s
      else .next (s.incSP.setPc s.loadTop.toNat) := rfl

/-- The SP that POP increments: the popped byte for R7, else the SP (R120). -/
theorem sp_loadInto (r : RegIx) (s : State) :
    (s.loadInto r).sp = if r = spIx then s.readByte s.sp else s.sp := State.sp_setReg s r _

theorem reg_loadInto (r q : RegIx) (s : State) :
    (s.loadInto r).reg q = if q = r then s.readByte s.sp else s.reg q := State.reg_setReg s r q _

theorem reg_pushReturn (r : RegIx) (s : State) :
    s.pushReturn.reg r = if r = spIx then s.sp - 1 else s.reg r := State.reg_decSP s r

@[simp] theorem sp_pushReturn (s : State) : s.pushReturn.sp = s.sp - 1 := State.sp_decSP s

theorem readByte_pushReturn (s : State) (a : Addr) :
    s.pushReturn.readByte a =
      if a = s.pushAddr then BitVec.ofNat 8 s.returnAddress else s.readByte a :=
  Memory.read_write s.mem _ a _

theorem validIndex_regByte (r : RegIx) : validIndex (regByte r) = true := by
  cases hv : validIndex (regByte r) with
  | true => rfl
  | false => rw [← regIndex?_eq_none, regIndex?_regByte] at hv; cases hv

/-- Everything an instruction can do: run on valid registers, or raise. -/
inductive Ran : Instr → State → State → Prop where
  | hlt (s) : Ran .hlt s ((s.advance 1).setStatus .halted)
  | ldi (r imm s) : Ran (.ldi (regByte r) imm) s ((s.setReg r imm).advance 3)
  | prn (r s) : Ran (.prn (regByte r)) s ((s.emit (s.reg r)).advance 2)
  | add (r q s) : Ran (.add (regByte r) (regByte q)) s
      ((s.setReg r (wrap8 ((s.reg r).toNat + (s.reg q).toNat))).advance 3)
  | mul (r q s) : Ran (.mul (regByte r) (regByte q)) s
      ((s.setReg r (wrap8 ((s.reg r).toNat * (s.reg q).toNat))).advance 3)
  | cmp (r q s) : Ran (.cmp (regByte r) (regByte q)) s
      ((s.setFlags (Flags.compare (s.reg r) (s.reg q))).advance 3)
  | jmp (r s) : Ran (.jmp (regByte r)) s (s.setPc (s.reg r).toNat)
  | jeq (r s) : Ran (.jeq (regByte r)) s
      (if s.flags.e then s.setPc (s.reg r).toNat else s.advance 2)
  | jne (r s) : Ran (.jne (regByte r)) s
      (if !s.flags.e then s.setPc (s.reg r).toNat else s.advance 2)
  | push (r s) : s.sp ≠ 0 → Ran (.push (regByte r)) s
      ((s.decSP.storeTop (s.decSP.reg r)).advance 2)
  | pushOverflow (r s) : s.sp = 0 → Ran (.push (regByte r)) s (s.raise .stackOverflow 0)
  | pop (r s) : (s.loadInto r).sp ≠ 255 → Ran (.pop (regByte r)) s ((s.loadInto r).incSP.advance 2)
  | popUnderflow (r s) : (s.loadInto r).sp = 255 →
      Ran (.pop (regByte r)) s (s.raise .stackUnderflow 255)
  | call (r s) : s.sp ≠ 0 → s.returnAddress ≤ 255 → Ran (.call (regByte r)) s
      (s.pushReturn.setPc (s.pushReturn.target r))
  | callOverflow (r s) : s.sp = 0 → Ran (.call (regByte r)) s (s.raise .stackOverflow 0)
  | callAddress (r s) : s.sp ≠ 0 → 255 < s.returnAddress → Ran (.call (regByte r)) s
      (s.raise (.outOfBounds .returnAddress) s.returnAddress)
  | ret (s) : s.sp ≠ 255 → Ran .ret s (s.incSP.setPc s.loadTop.toNat)
  | retUnderflow (s) : s.sp = 255 → Ran .ret s (s.raise .stackUnderflow 255)
  | badIndex (i s b) : i.badIndex? = some b →
      Ran i s (s.raise (.outOfBounds .register) b.toNat)

theorem badIndex?_one {ra : Byte} {i : Instr} (hi : i.regOperands = [ra])
    (h : validIndex ra = false) : i.badIndex? = some ra := by
  simp only [Instr.badIndex?, hi, List.find?_cons, h, Bool.not_false]

theorem not_past {b : Byte} (h : ¬ b.toNat + 1 > 255) : b ≠ 255 := by
  rintro rfl
  exact h (by decide)

theorem eq_of_past {b : Byte} (h : b.toNat + 1 > 255) : b = 255 := by
  have := b.isLt
  exact BitVec.eq_of_toNat_eq (show b.toNat = 255 by omega)

/-- Whatever `exec` answers as a next state is one of the cases of `Ran`. -/
theorem exec_ran {i : Instr} {s t : State} (h : exec i s = .next t) : Ran i s t := by
  cases i with
  | hlt => cases h; exact .hlt s
  | ldi ra imm =>
    rcases withReg_next h with ⟨r, rfl, k⟩ | ⟨hv, rfl⟩
    · cases k; exact .ldi r imm s
    · exact .badIndex _ s _ (badIndex?_one rfl hv)
  | prn ra =>
    rcases withReg_next h with ⟨r, rfl, k⟩ | ⟨hv, rfl⟩
    · cases k; exact .prn r s
    · exact .badIndex _ s _ (badIndex?_one rfl hv)
  | add ra rb =>
    rcases withRegs_next h with ⟨r, q, rfl, rfl, k⟩ | ⟨hv, rfl⟩ | ⟨hv, hw, rfl⟩
    · cases k; exact .add r q s
    · exact .badIndex _ s _ (by simp [Instr.badIndex?, Instr.regOperands, hv])
    · exact .badIndex _ s _ (by simp [Instr.badIndex?, Instr.regOperands, hv, hw])
  | mul ra rb =>
    rcases withRegs_next h with ⟨r, q, rfl, rfl, k⟩ | ⟨hv, rfl⟩ | ⟨hv, hw, rfl⟩
    · cases k; exact .mul r q s
    · exact .badIndex _ s _ (by simp [Instr.badIndex?, Instr.regOperands, hv])
    · exact .badIndex _ s _ (by simp [Instr.badIndex?, Instr.regOperands, hv, hw])
  | cmp ra rb =>
    rcases withRegs_next h with ⟨r, q, rfl, rfl, k⟩ | ⟨hv, rfl⟩ | ⟨hv, hw, rfl⟩
    · cases k; exact .cmp r q s
    · exact .badIndex _ s _ (by simp [Instr.badIndex?, Instr.regOperands, hv])
    · exact .badIndex _ s _ (by simp [Instr.badIndex?, Instr.regOperands, hv, hw])
  | jmp ra =>
    rcases branch_next h with ⟨r, rfl, rfl⟩ | ⟨hv, rfl⟩
    · exact .jmp r s
    · exact .badIndex _ s _ (badIndex?_one rfl hv)
  | jeq ra =>
    rcases branch_next h with ⟨r, rfl, rfl⟩ | ⟨hv, rfl⟩
    · exact .jeq r s
    · exact .badIndex _ s _ (badIndex?_one rfl hv)
  | jne ra =>
    rcases branch_next h with ⟨r, rfl, rfl⟩ | ⟨hv, rfl⟩
    · exact .jne r s
    · exact .badIndex _ s _ (badIndex?_one rfl hv)
  | push ra =>
    rcases withReg_next h with ⟨r, rfl, k⟩ | ⟨hv, rfl⟩
    · split at k
      · next hs =>
        rw [hs] at k
        cases k
        exact .pushOverflow r s hs
      · next hs =>
        cases k
        exact .push r s hs
    · exact .badIndex _ s _ (badIndex?_one rfl hv)
  | pop ra =>
    rcases withReg_next h with ⟨r, rfl, k⟩ | ⟨hv, rfl⟩
    · split at k
      · next hs =>
        rw [eq_of_past hs] at k
        cases k
        exact .popUnderflow r s (eq_of_past hs)
      · next hs =>
        cases k
        exact .pop r s (not_past hs)
    · exact .badIndex _ s _ (badIndex?_one rfl hv)
  | call ra =>
    rcases withReg_next h with ⟨r, rfl, k⟩ | ⟨hv, rfl⟩
    · split at k
      · next hs =>
        rw [hs] at k
        cases k
        exact .callOverflow r s hs
      · next hs =>
        split at k
        · next hp =>
          cases k
          exact .callAddress r s hs hp
        · next hp =>
          cases k
          exact .call r s hs (not_lt.1 hp)
    · exact .badIndex _ s _ (badIndex?_one rfl hv)
  | ret =>
    rw [exec_ret] at h
    split at h
    · next hs =>
      rw [eq_of_past hs] at h
      cases h
      exact .retUnderflow s (eq_of_past hs)
    · next hs =>
      cases h
      exact .ret s (not_past hs)

/-- Whatever a step of a live core answers: the fetched instruction has done one of the cases of `Ran`, or the fetch has
raised. -/
theorem step_ran {s t : State} (hl : s.live) (h : step s = .next t) :
    (∃ i, fetchWith OPCODE s = .ok i ∧ Ran i s.begun t) ∨
      ∃ k d, fetchWith OPCODE s = .error (k, d) ∧ t = s.begun.raise k d := by
  rw [step_of_live hl, runStepWith, fetchWith_begun] at h
  cases hf : fetchWith OPCODE s with
  | ok i =>
    rw [hf] at h
    exact .inl ⟨i, rfl, exec_ran h⟩
  | error e =>
    rw [hf] at h
    exact .inr ⟨e.1, e.2, rfl, (Host.Outcome.next.inj h).symm⟩

end Sys2Proof.Machine
end

