-- ==== Sys2Proof/Laws/PerInstr.lean ====
section
/-! SUPPORT. Laws of the syntax, one lemma per instruction. -/

namespace Sys2Proof.Laws.EncodedWidth

/-- An instruction encodes, under any opcode map, in as many bytes as R64 says. -/
def Statement (i : Instr) : Prop := ∀ op : Opcodes, (encodeWith op i).length = i.width

theorem hlt : Statement .hlt := fun _ => rfl
theorem ldi (ra imm : Byte) : Statement (.ldi ra imm) := fun _ => rfl
theorem prn (ra : Byte) : Statement (.prn ra) := fun _ => rfl
theorem add (ra rb : Byte) : Statement (.add ra rb) := fun _ => rfl
theorem mul (ra rb : Byte) : Statement (.mul ra rb) := fun _ => rfl
theorem cmp (ra rb : Byte) : Statement (.cmp ra rb) := fun _ => rfl
theorem jmp (ra : Byte) : Statement (.jmp ra) := fun _ => rfl
theorem jeq (ra : Byte) : Statement (.jeq ra) := fun _ => rfl
theorem jne (ra : Byte) : Statement (.jne ra) := fun _ => rfl
theorem push (ra : Byte) : Statement (.push ra) := fun _ => rfl
theorem pop (ra : Byte) : Statement (.pop ra) := fun _ => rfl
theorem call (ra : Byte) : Statement (.call ra) := fun _ => rfl
theorem ret : Statement .ret := fun _ => rfl

end Sys2Proof.Laws.EncodedWidth
end

