-- ==== Sys2Proof/Laws/Run.lean ====
section
/-! SUPPORT. The host's run of the machine, one step at a time, and what its reads answer. -/

namespace Sys2Proof.Machine

/-- A run of `k + 1` steps is a step and a run of `k`, whatever the machine. -/
theorem run_succ (M : Host.Core) {s u : M.State} (k : Nat) (h : M.step s = .next u) : M.run (k + 1) s = M.run k u := by
  rw [Host.Core.run.eq_2, h]

/-- A run of `k + 1` steps of CORE is a step and a run of `k`. -/
theorem core_run_succ {s u : State} (k : Nat) (h : step s = .next u) :
    Sys2Proof.core.run (k + 1) s = Sys2Proof.core.run k u :=
  run_succ Sys2Proof.core k h

/-- The same under any parameters. -/
theorem coreWith_run_succ (op : Opcodes) (p : ResetParams) {s u : State} (k : Nat) (h : stepWith op s = .next u) :
    (coreWith op p).run (k + 1) s = (coreWith op p).run k u := run_succ (coreWith op p) k h

/-- In a final status a run returns at once (R86). -/
theorem runFuelWith_of_final (op : Opcodes) {s : State} (h : s.status.isFinal = true) (n : Nat) :
    s.runFuelWith op n = some s := by
  cases n <;> simp [State.runFuelWith, h]

/-- Without fuel a run that has not ended has no outcome (R98). -/
theorem runFuelWith_zero (op : Opcodes) {s : State} (h : s.status.isFinal = false) : s.runFuelWith op 0 = none := by
  simp [State.runFuelWith, h]

/-- In any other status a run is a step and a run from there (R85). -/
theorem runFuelWith_succ (op : Opcodes) {s u : State} (h : s.status.isFinal = false) (hs : stepWith op s = .next u) (n : Nat) :
    s.runFuelWith op (n + 1) = u.runFuelWith op n := by
  simp [State.runFuelWith, h, hs]

/-- The default run is the run under the default opcode map. -/
theorem runFuel_eq (s : State) (n : Nat) : s.runFuel n = s.runFuelWith OPCODE n := rfl

/-- All that inspection does: in a final status it shows the state, in any other there is none (R57, R89). -/
theorem inspect_eq_some {s : State} {v : Inspection} :
    s.inspect = some v ↔ s.status.isFinal = true ∧
      v = { x := s.x, pc := s.pc, flags := s.flags, mem := s.mem, out := s.out } := by
  unfold State.inspect
  split
  · next h => simp [h, eq_comm]
  · next h => simp [h]

/-- All that the fault report does: in status Faulted it is the record, in any other there is none (R80). -/
theorem faultReport_eq_some {s : State} {r : FaultRecord} :
    s.faultReport = some r ↔ s.status = .faulted ∧ s.fault = some r := by
  unfold State.faultReport
  split <;> simp [*]

end Sys2Proof.Machine
end

