-- ==== Sys2Proof/Tests/Slice0.lean ====
section
/-! SUPPORT. The model's own tests. Expected results are those of spec/95_test_vectors.md (W and V numbers) or written out from the encodings of 30_encoding.md; then one witness for each statement with hypotheses. -/

namespace Sys2Proof.Tests

open Sys2Proof Sys2Proof.Machine

/-- A running core at `pc` with `bytes` there, registers given as (index, value), SP as reset leaves it. -/
def core1 (pc : Nat) (bytes : List Byte) (regs : List (RegIx × Byte)) : State :=
  regs.foldl (fun s p => s.setReg p.1 p.2)
    { State.reset with pc, status := .running, mem := Memory.writeFrom [] pc bytes }

/-- The state a result gives, where it gives one. -/
def after : Result → Option State
  | .next t => some t
  | .fault _ => none
  | .refused _ => none

/-- One step, seen through `f`. -/
def seen {α : Type} (s : State) (f : State → α) : Option α := (after (step s)).map f

/-! ## WellFormed: an ill-formed term for each check -/

theorem test_wellFormed_ok : (Instr.add 0 7).wellFormed = true ∧ (Instr.ldi 7 255).wellFormed = true := by decide
theorem test_wellFormed_ra : (Instr.push 8).wellFormed = false := by decide
theorem test_wellFormed_rb : (Instr.add 0 9).wellFormed = false := by decide
theorem test_badIndex_order : (Instr.add 8 9).badIndex? = some 8 ∧ (Instr.add 0 9).badIndex? = some 9 := by decide

/-! ## Decoding: every word written out bit by bit from R63 and R66 -/

theorem test_decode_hlt : decode [0b00000001] = .ok (.hlt, []) := rfl
theorem test_decode_ldi : decode [0b10000010, 0b00000000, 0b00001000] = .ok (.ldi 0 8, []) := rfl
theorem test_decode_prn : decode [0b01000111, 0b00000101] = .ok (.prn 5, []) := rfl
theorem test_decode_add : decode [0b10100000, 0b00000000, 0b00000001] = .ok (.add 0 1, []) := rfl
theorem test_decode_mul : decode [0b10100010, 0b00000010, 0b00000011] = .ok (.mul 2 3, []) := rfl
theorem test_decode_cmp : decode [0b10100111, 0b00000100, 0b00000110] = .ok (.cmp 4 6, []) := rfl
theorem test_decode_jmp : decode [0b01010100, 0b00000010] = .ok (.jmp 2, []) := rfl
theorem test_decode_jeq : decode [0b01010101, 0b00000011] = .ok (.jeq 3, []) := rfl
theorem test_decode_jne : decode [0b01010110, 0b00000011] = .ok (.jne 3, []) := rfl
theorem test_decode_push : decode [0b01000101, 0b00000111] = .ok (.push 7, []) := rfl
theorem test_decode_pop : decode [0b01000110, 0b00000001] = .ok (.pop 1, []) := rfl
theorem test_decode_call : decode [0b01010000, 0b00000001] = .ok (.call 1, []) := rfl
theorem test_decode_ret : decode [0b00010001] = .ok (.ret, []) := rfl
theorem test_decode_rest : decode [0x45, 0x01, 0x11] = .ok (.push 1, [0x11]) := rfl
theorem test_decode_rejects : decode [] = .error .noOpcode ∧ decode [0x00, 0x01] = .error (.invalidOpcode 0x00) ∧
    decode [0x82, 0x00] = .error (.truncated 0x82) := ⟨rfl, rfl, rfl⟩
theorem test_table_word : decodeTableWord 24 0x6402A0 = some (.add 2 100) ∧ decodeTableWord 8 0x82 = some (.ldi 0 0) ∧
    decodeTableWord 8 0xFF = none := by decide
theorem test_asm : (Instr.ldi 0 8).asm = "LDI R0, 8" ∧ Instr.hlt.asm = "HLT" := by decide

/-! ## Fetch and decode faults (V1 to V13) -/

theorem test_v1_fetch : seen (core1 256 [] []) (·.fault) = some (some ⟨.outOfBounds .fetch, 256, none, 256⟩) := by decide
theorem test_v4_operand : seen (core1 254 [0x82, 0x00] []) (·.fault) =
    some (some ⟨.outOfBounds .operandFetch, 254, some 0x82, 256⟩) := by decide
theorem test_v8_invalid : seen (core1 255 [0xFF] []) (·.fault) = some (some ⟨.invalidOpcode, 255, some 0xFF, 0xFF⟩) := by decide
theorem test_v11_register : seen (core1 0 [0xA0, 0x08, 0x09] []) (fun t => (t.fault, t.pc, t.status)) =
    some (some ⟨.outOfBounds .register, 0, some 0xA0, 8⟩, 0, .faulted) := by decide

/-! ## Instructions -/

theorem test_v6_hlt : seen (core1 255 [0x01] []) (fun t => (t.pc, t.status, t.fault)) = some (256, .halted, none) := by decide
theorem test_v22_ldi_sp : seen (core1 0 [0x82, 0x07, 0x10] []) (fun t => (t.sp, t.pc)) = some (16, 3) := by decide
theorem test_v12_ldi_255 : seen (core1 0 [0x82, 0x00, 0xFF] []) (fun t => (t.reg 0, t.pc)) = some (255, 3) := by decide
theorem test_v24_prn : seen (core1 0 [0x47, 0x05] [(5, 200)]) (fun t => (t.out, t.pc)) = some ([200], 2) := by decide
theorem test_v25_prn_sp : seen (core1 0 [0x47, 0x07] []) (·.out) = some [244] := by decide
theorem test_v30_add : seen (core1 0 [0xA0, 0x00, 0x01] [(0, 200), (1, 100)]) (fun t => (t.reg 0, t.reg 1, t.pc)) =
    some (44, 100, 3) := by decide
theorem test_v35_add_self : seen (core1 0 [0xA0, 0x00, 0x00] [(0, 128)]) (·.reg 0) = some 0 := by decide
theorem test_v43_mul : seen (core1 0 [0xA2, 0x00, 0x01] [(0, 100), (1, 100)]) (fun t => (t.reg 0, t.pc)) = some (16, 3) := by decide
theorem test_v46_mul_self : seen (core1 0 [0xA2, 0x00, 0x00] [(0, 15)]) (·.reg 0) = some 225 := by decide
theorem test_v53_cmp : seen (core1 0 [0xA7, 0x00, 0x01] [(0, 0), (1, 255)]) (·.flags) = some ⟨false, false, true⟩ := by decide
theorem test_v55_cmp : seen (core1 0 [0xA7, 0x00, 0x01] [(0, 128), (1, 127)]) (·.flags) = some ⟨false, true, false⟩ := by decide
theorem test_v60_jmp : seen (core1 20 [0x54, 0x02] [(2, 12)]) (·.pc) = some 12 := by decide
theorem test_v62_jeq : seen ((core1 10 [0x55, 0x03] [(3, 40)]).setFlags ⟨true, false, false⟩) (·.pc) = some 40 := by decide
theorem test_v68_jeq : seen (core1 254 [0x55, 0x03] [(3, 40)]) (·.pc) = some 256 := by decide
theorem test_v65_jne : seen ((core1 10 [0x56, 0x03] [(3, 40)]).setFlags ⟨false, false, true⟩) (·.pc) = some 40 := by decide
theorem test_v66_jne : seen ((core1 10 [0x56, 0x03] [(3, 40)]).setFlags ⟨true, false, false⟩) (·.pc) = some 12 := by decide
theorem test_v70_push : seen (core1 0 [0x45, 0x00] [(0, 42)]) (fun t => (t.sp, t.readByte 0xF3, t.pc)) = some (0xF3, 42, 2) := by decide
theorem test_v73_push_sp : seen (core1 0 [0x45, 0x07] []) (fun t => (t.sp, t.readByte 0xF3)) = some (0xF3, 0xF3) := by decide
theorem test_v76_pop : seen ((core1 0 [0x46, 0x01] [(7, 254)]).writeByte 254 9) (fun t => (t.reg 1, t.sp, t.pc)) =
    some (9, 255, 2) := by decide
theorem test_v77_pop_sp : seen ((core1 0 [0x46, 0x07] [(7, 0xF3)]).writeByte 0xF3 0x10) (·.sp) = some 0x11 := by decide
theorem test_v95_call_sp : seen (core1 0x20 [0x50, 0x07] []) (fun t => (t.sp, t.readByte 0xF3, t.pc)) =
    some (0xF3, 0x22, 0xF3) := by decide
theorem test_v93_call_order : seen (core1 254 [0x50, 0x01] [(7, 0)]) (·.fault) =
    some (some ⟨.stackOverflow, 254, some 0x50, 0⟩) := by decide
theorem test_v7_ret : seen ((core1 255 [0x11] [(7, 0xF3)]).writeByte 0xF3 0x10) (fun t => (t.pc, t.sp)) = some (0x10, 0xF4) := by decide
theorem test_v97_ret : seen (core1 6 [0x11] [(7, 255)]) (fun t => (t.fault, t.pc)) =
    some (some ⟨.stackUnderflow, 6, some 0x11, 255⟩, 6) := by decide

/-! ## Host operations -/

/-- A core with HLT loaded, before `run`. -/
def ready0 : State := { State.reset with mem := [(0, 0x01)] }

theorem test_v104_load : (State.load { State.reset with status := .halted } [0x01]) = .error .notReady := rfl
theorem test_load_run : (match State.reset.load [0x01] with
    | .ok s => (s.runFuel 1).map (fun t => (t.pc, t.outcome))
    | .error _ => none) = some (1, some .halted) := by decide
theorem test_withFetchWord : seen (State.reset.withFetchWord 24 0xC80382) (fun t => (t.reg 3, t.pc, t.status)) =
    some (200, 3, .running) := by decide
theorem test_inspect : (ready0.inspect = none ∧ ready0.outcome = none) ∧
    ((after (step ready0)).bind State.inspect).map (fun v => (v.reg 7, v.pc, v.cell 0)) = some (0xF4, 1, 0x01) := by decide
theorem test_render : renderOut [8, 200] = ["8", "200"] := by decide
theorem test_codes : FaultKind.invalidOpcode.code = 1 ∧ (FaultKind.outOfBounds .register).code = 2 ∧
    FaultKind.stackOverflow.code = 3 ∧ FaultKind.stackUnderflow.code = 4 := by decide

/-! ## Witnesses: concrete states and operands that meet all hypotheses of a statement, one for each clause -/

/-- A loaded core before `run`. -/
def ready (bytes : List Byte) : State := { State.reset with mem := Memory.writeFrom [] 0 bytes }

/-- The state one step gives (the state itself where it gives none). -/
def stepped (s : State) : State := ((after (step s)).getD s)

theorem ready_inv : (ready [0x01]).Inv where
  memCanonical := by decide
  pcBound := by decide
  flagsAtMostOne := by decide
  recordIffFaulted := by decide
  recordIsRow := fun _ h => by cases h

theorem witness_ResetMeetsTheInvariant : ∃ p : ResetParams, p.eInit = true ∧
    p.eInit.toNat + p.gInit.toNat + p.lInit.toNat ≤ 1 :=
  ⟨{ resetParams with eInit := true }, rfl, by decide⟩

theorem witness_EveryStepKeepsTheInvariant :
    (ready [0x01]).Inv ∧ step (ready [0x01]) = .next (stepped (ready [0x01])) := ⟨ready_inv, rfl⟩

theorem witness_LoadKeepsTheInvariant :
    (ready [0x01]).Inv ∧ (ready [0x01]).load [] = .ok (ready [0x01]) := ⟨ready_inv, rfl⟩

theorem witness_EveryReachableFaultIsATableRow :
    Reachable (stepped State.reset) ∧ (stepped State.reset).status = .faulted :=
  ⟨.step .reset rfl, by decide⟩

theorem witness_StepRunsTheDecodedInstruction :
    (core1 255 [0x11] []).live ∧ decode ((core1 255 [0x11] []).mem.bytesFrom 3 255) = .ok (.ret, []) ∧
    (ready [0x01]).live := ⟨.inr rfl, rfl, .inl rfl⟩

theorem witness_StepRunsTheBytesAtPc : (core1 254 [0x45, 0x07] []).live ∧
    ∀ k b, (encode (.push 7))[k]? = some b → (core1 254 [0x45, 0x07] []).mem.byteAt? (254 + k) = some b := by
  refine ⟨.inr rfl, fun k b h => ?_⟩
  match k with
  | 0 => cases h; rfl
  | 1 => cases h; rfl
  | k + 2 => cases h

theorem witness_InvalidOpcodeRaises :
    ((core1 255 [0xFF] []).live ∧ (core1 255 [0xFF] []).mem.byteAt? 255 = some 0xFF ∧ 0xFF ∉ OPCODE.all) ∧
    ((core1 255 [0x01] []).live ∧ (core1 255 [0x01] []).mem.byteAt? 255 = some 0x01 ∧ 0x01 ∈ OPCODE.all ∧
      (core1 255 [0x01] []).fault = none ∧ (core1 0 [0x45, 0x08] []).live ∧
      (stepped (core1 0 [0x45, 0x08] [])).fault = some ⟨.outOfBounds .register, 0, some 0x45, 8⟩) :=
  ⟨⟨.inr rfl, by decide, by decide⟩, .inr rfl, by decide, by decide, rfl, .inr rfl, by decide⟩

theorem witness_FetchPastMemoryRaises : (core1 256 [] []).live ∧ 255 < (core1 256 [] []).pc := ⟨.inr rfl, by decide⟩

theorem witness_OperandPastMemoryRaises :
    ((core1 255 [0x45] []).live ∧ (core1 255 [0x45] []).mem.byteAt? 255 = some 0x45 ∧
      widthOf? OPCODE 0x45 = some 2 ∧ 255 < 255 + 2 - 1) ∧
    ((core1 254 [0x82, 0x00] []).live ∧ (core1 254 [0x82, 0x00] []).mem.byteAt? 254 = some 0x82 ∧
      widthOf? OPCODE 0x82 = some 3 ∧ 255 < 254 + 3 - 1) :=
  ⟨⟨.inr rfl, by decide, rfl, by decide⟩, .inr rfl, by decide, rfl, by decide⟩

theorem witness_BadRegisterIndexRaises : (Instr.ldi 8 5).badIndex? = some 8 ∧ (Instr.cmp 7 255).badIndex? = some 255 ∧
    (Instr.mul 8 9).badIndex? = some 8 := by decide

theorem witness_RaisingChangesStatusAndRecordOnly : (core1 0 [0x45, 0x00] [(7, 0)]).live ∧
    step (core1 0 [0x45, 0x00] [(7, 0)]) = .next (stepped (core1 0 [0x45, 0x00] [(7, 0)])) ∧
    (stepped (core1 0 [0x45, 0x00] [(7, 0)])).status = .faulted := ⟨.inr rfl, rfl, by decide⟩

theorem witness_FinalStatusStays : ((ready []).setStatus .halted).status = .halted ∧
    (stepped State.reset).status = .faulted ∧
    (stepped State.reset).fault = some ⟨.invalidOpcode, 0, some 0x00, 0⟩ := by decide

theorem witness_RunEndsExactlyAtAFinalStatus :
    (ready [0x01]).runFuel 1 = some (stepped (ready [0x01])) ∧
    Sys2Proof.core.run 1 (ready [0x01]) = .next (stepped (ready [0x01])) ∧ (ready [0x01]).live ∧
    step (ready [0x01]) = .next (stepped (ready [0x01])) ∧ (stepped (ready [0x01])).status = .halted :=
  ⟨rfl, rfl, .inl rfl, rfl, by decide⟩

theorem witness_MoreFuelGivesTheSameRun : (ready [0x01]).runFuel 1 = some (stepped (ready [0x01])) ∧ 1 ≤ 1 :=
  ⟨rfl, by decide⟩

/-- Both sides of each equivalence are met by a HLT that is loaded, and neither by a PUSH with SP 0. -/
theorem witness_SafeRunStaysWithinTheBounds : ((ready [0x01]).live ∧ (ready [0x01]).safeFor 1 ∧ (ready [0x01]).canStep) ∧
    (core1 0 [0x45, 0x00] [(7, 0)]).live ∧ ¬ (core1 0 [0x45, 0x00] [(7, 0)]).safeFor 1 := by
  refine ⟨⟨.inl rfl, ⟨rfl, fun _ h => by cases h; rfl⟩, .hlt, fun k b h => ?_, rfl, trivial⟩, .inr rfl, fun h => ?_⟩
  · match k with
    | 0 => cases h; rfl
    | k + 1 => cases h
  · cases h.2 _ rfl

/-- An opcode map other than the default one. -/
def otherOpcodes : Opcodes := ⟨0, 1, 2, 3, 4, 5, 6, 7, 8, 9, 10, 11, 12⟩

theorem witness_DecodeOfEncodeIsTheInstruction : otherOpcodes.Distinct ∧ otherOpcodes ≠ OPCODE := by decide

theorem witness_EncodeOfDecodeIsTheBytes :
    decodeWith otherOpcodes [9, 0xFF, 0x01] = .ok (.push 0xFF, [0x01]) := rfl

theorem witness_WidthIsAFunctionOfTheOpcode :
    decode (0xA7 :: [0x00, 0x08, 0x11]) = .ok (.cmp 0 8, [0x11]) ∧ (0x00 : Byte) ∉ OPCODE.all := ⟨rfl, by decide⟩

theorem witness_OpcodeMatchesTheWholeByte : decode (0x11 :: []) = .ok (.ret, []) := rfl

theorem witness_PlacedTableWordRuns : decodeTableWord 8 0x11 = some .ret ∧ decodeTableWord 16 0x0745 = some (.push 7) := by
  decide

theorem witness_PushStoresBelowTheStackPointer : (core1 0 [] [(7, 1)]).sp ≠ 0 := by decide

theorem witness_PopLoadsTheTopOfStack : (6 : RegIx) ≠ spIx ∧ (core1 0 [] [(7, 254)]).sp ≠ 255 := by decide

theorem witness_PopIntoStackPointerAddsOne :
    (((core1 0 [] [(7, 255)]).writeByte 255 254).readByte ((core1 0 [] [(7, 255)]).writeByte 255 254).sp) ≠ 255 := by decide

theorem witness_CallSavesTheReturnAddress : (core1 253 [] [(7, 1)]).sp ≠ 0 ∧ (core1 253 [] [(7, 1)]).pc + 2 ≤ 255 := by
  decide

theorem witness_ReturnPopsThePc : (core1 0 [] [(7, 254)]).sp ≠ 255 := by decide

theorem witness_PushAndCallAtZeroOverflow : (core1 254 [] [(7, 0)]).sp = 0 := by decide

theorem witness_PopAndReturnPast255Underflow : (6 : RegIx) ≠ spIx ∧ (core1 0 [] [(7, 255)]).sp = 255 ∧
    ((core1 0 [] []).writeByte 0xF4 255).readByte ((core1 0 [] []).writeByte 0xF4 255).sp = 255 := by decide

theorem witness_CallAt254Raises : (core1 254 [] [(7, 1)]).sp ≠ 0 ∧ (core1 254 [] [(7, 1)]).pc = 254 := by decide

/-- A small running state with R0 = 1, R1 = 255. -/
def small : State := core1 0 [] [(0, 1), (1, 255)]

theorem witness_OnlyCompareWritesTheFlags :
    exec (.cmp (regByte 0) (regByte 1)) small = .next ((small.setFlags ⟨false, false, true⟩).advance 3) ∧
    small.x = (small.setFlags ⟨true, false, false⟩).x ∧
    exec (.cmp (regByte 0) (regByte 1)) (small.setFlags ⟨true, false, false⟩) =
      .next ((small.setFlags ⟨false, false, true⟩).advance 3) ∧
    (∀ a b, Instr.jmp 0 ≠ .cmp a b) ∧ exec (.jmp 0) small = .next (small.setPc 1) ∧
    (core1 0 [0xA7, 0x00, 0x08] []).live ∧
    step (core1 0 [0xA7, 0x00, 0x08] []) = .next (stepped (core1 0 [0xA7, 0x00, 0x08] [])) ∧
    (stepped (core1 0 [0xA7, 0x00, 0x08] [])).status = .faulted ∧
    (ready []).load [0x01] = .ok (ready [0x01]) :=
  ⟨rfl, rfl, rfl, (by intro a b h; cases h), rfl, .inr rfl, rfl, by decide, rfl⟩

theorem witness_PcIsAdvancedOrSet : small.status = .running ∧ exec (.jne 0) small = .next (small.setPc 1) ∧
    (small.setPc 1).status ≠ .faulted ∧
    exec (.push 8) small = .next (small.raise (.outOfBounds .register) 8) ∧
    (small.raise (.outOfBounds .register) 8).status = .faulted := ⟨rfl, rfl, by decide, rfl, rfl⟩

theorem witness_RegistersChangeOnlyWhereListed :
    exec (.ldi 6 9) small = .next ((small.setReg 6 9).advance 3) ∧ (7 : RegIx) ∉ writesOf (.ldi 6 9) := ⟨rfl, by decide⟩

theorem witness_MemoryChangesOnlyAtTheStackCell :
    exec (.push 1) small = .next ((small.decSP.storeTop 255).advance 2) ∧
    (0xF4 : Addr) ∉ storesOf (.push 1) small ∧ (0xF3 : Addr) ∈ storesOf (.push 1) small := ⟨rfl, by decide, by decide⟩

theorem witness_OnlyPrintEmits : 7 < (8 : Byte).toNat ∧
    exec (.prn 8) small = .next (small.raise (.outOfBounds .register) 8) ∧
    (∀ ra, Instr.add 0 1 ≠ .prn ra) ∧ exec (.add 0 1) small = .next ((small.setReg 0 0).advance 3) :=
  ⟨by decide, rfl, (by intro ra h; cases h), rfl⟩

theorem witness_OnlyStackInstructionsRaiseInExecute : small.status = .running ∧
    exec .hlt small = .next ((small.advance 1).setStatus .halted) ∧
    ((small.advance 1).setStatus .halted).status ≠ .faulted ∧
    exec (.push (regByte 0)) (small.setSP 0) = .next ((small.setSP 0).raise .stackOverflow 0) ∧
    (small.setSP 0).status = .running ∧ ((small.setSP 0).raise .stackOverflow 0).status = .faulted ∧
    (Instr.push (regByte 0)).wellFormed = true := ⟨rfl, rfl, by decide, rfl, rfl, rfl, by decide⟩

/-- `core1` with a JEQ at 0 and flags that differ in G and L alone. -/
def greater : State := (core1 0 [0x55, 0x00] []).setFlags ⟨false, true, false⟩
/-- The same with L in place of G. -/
def less : State := (core1 0 [0x55, 0x00] []).setFlags ⟨false, false, true⟩

theorem witness_GreaterAndLessAreNeverRead : SameButGL greater less ∧ greater ≠ less ∧
    step greater = .next (stepped greater) ∧ step less = .next (stepped less) := ⟨rfl, by decide, rfl, rfl⟩

theorem witness_PushThenPopRoundTrips : (0 : RegIx) ≠ spIx ∧ (6 : RegIx) ≠ spIx ∧ (core1 0 [] [(7, 1)]).sp ≠ 0 := by
  decide

theorem witness_CallThenReturnRoundTrips : (core1 253 [] [(7, 255)]).sp ≠ 0 ∧
    (core1 253 [] [(7, 255)]).pc + 2 ≤ 255 := by decide

/-- The PUSH of program P5: R0 holds HLT's opcode and SP is just above the cell after the PUSH. -/
def p5 : State := core1 6 [0x45, 0x00, 0xFF] [(7, 9), (0, 1)]

theorem witness_PushedByteIsFetchedNext : p5.status = .running ∧ p5.sp ≠ 0 ∧ p5.pushAddr.toNat = p5.pc + 2 ∧
    (0 : RegIx) ≠ spIx ∧ p5.reg 0 = OPCODE.hlt := by decide

theorem witness_MemoriesThatReadAlikeAreEqual : Memory.wf [(0, 5), (255, 1)] ∧
    ∀ a : Addr, Memory.read [(0, 5), (255, 1)] a = (Memory.write [(255, 1)] 0 5).read a :=
  ⟨by decide, fun _ => rfl⟩

theorem witness_LoadWritesTheProgram : (ready []).status = .ready ∧ (List.replicate 256 (1 : Byte)).length ≤ 256 ∧
    [(0x45 : Byte), 7][1]? = some 7 ∧ [(0x45 : Byte), 7].length ≤ (2 : Addr).toNat ∧
    small.status ≠ .ready :=
  ⟨rfl, le_of_eq List.length_replicate, rfl, by decide, by decide⟩

theorem witness_LoadRefusesALongProgram : (ready []).status = .ready ∧ 256 < (List.replicate 257 (1 : Byte)).length :=
  ⟨rfl, by rw [List.length_replicate]; decide⟩

theorem witness_StepHasExactlyOneOutcome : (ready [0x01]).live ∧ small.live := ⟨.inl rfl, .inr rfl⟩

theorem witness_HostReadsTheStateOnlyAfterARun : (ready [0x01]).runFuel 1 = some (stepped (ready [0x01])) ∧
    (ready [0x01]).live ∧ small.status = .running := ⟨rfl, .inl rfl, rfl⟩

/-- A core halted by HLT meets the hypotheses with itself. -/
theorem witness_InspectionShowsTheWholeState : ((ready [0x01]).setStatus .halted).Inv ∧
    ∃ v, ((ready [0x01]).setStatus .halted).inspect = some v :=
  ⟨⟨by decide, by decide, by decide, by decide, fun _ h => by cases h⟩, _, rfl⟩

/-- Under `otherOpcodes` 0x09 is PUSH and 0x00 is HLT; 0x45 is no opcode. -/
theorem witness_AnyOpcodeMapRuns : otherOpcodes.Distinct ∧ (core1 6 [0x00] []).live ∧
    (∀ k b, (encodeWith otherOpcodes .hlt)[k]? = some b → (core1 6 [0x00] []).mem.byteAt? (6 + k) = some b) ∧
    (core1 255 [0x45] []).mem.byteAt? 255 = some 0x45 ∧ 0x45 ∉ otherOpcodes.all ∧
    (((ready [0x09, 0x01, 0x00]).runFuelWith otherOpcodes 2).map (fun t => (t.pc, t.sp, t.status))) =
      some (3, 0xF3, .halted) := by
  refine ⟨by decide, .inr rfl, fun k b h => ?_, by decide, by decide, by decide⟩
  match k with
  | 0 => cases h; rfl
  | k + 1 => cases h

/-- CMP then MUL from `small`, and ADD from a begun core: sequences with a CMP and without one. -/
theorem witness_FlagsKeepWhatTheLastCompareLeft :
    (∃ u, Executes ([] ++ .cmp 0 1 :: [.mul 0 1]) small u) ∧ (∀ i ∈ [Instr.mul 0 1], ∀ a b, i ≠ .cmp a b) ∧
    ∃ u, Executes [.add 0 1] (State.resetWith resetParams).begun u :=
  ⟨⟨_, .cons rfl rfl (.cons rfl rfl (.nil _))⟩, (by intro i h a b; cases h with
    | head => exact fun h => by cases h
    | tail _ h => cases h), _, .cons rfl rfl (.nil _)⟩

theorem witness_JumpFaultsOnlyAtItsTarget : small.status = .running ∧
    (less.flags.e = false ∧ less.status = .running) ∧ (p5.setFlags ⟨true, false, false⟩).flags.e = true ∧
    small.readByte (small.reg 1) ∉ OPCODE.all := ⟨rfl, ⟨rfl, rfl⟩, rfl, by decide⟩

end Sys2Proof.Tests
end

section
/-! PROOFS. What a step under any opcode map fetches and does. -/

namespace Sys2Proof

/-- Decoding undoes encoding, under every map of distinct opcodes and whatever bytes follow (R62, R67). -/
theorem decodeWith_encodeWith {op : Opcodes} (hd : op.Distinct) (i : Instr) (rest : List Byte) :
    decodeWith op (encodeWith op i ++ rest) = .ok (i, rest) := by
  obtain ⟨f, hrow, -, hread⟩ := opcode_row op i
  have hf : formatIn op.rows (i.opcodeWith op) = some f := formatIn_of_mem (rows_opcodes op ▸ hd) hrow
  rw [encodeWith, List.cons_append, decodeWith_some hf, hread]

/-- A first byte that is none of the map's opcodes is rejected (R73, R93). -/
theorem decodeWith_of_notMem {op : Opcodes} {b : Byte} (hb : b ∉ op.all) (rest : List Byte) :
    decodeWith op (b :: rest) = .error (.invalidOpcode b) :=
  decodeWith_none (formatIn_none.2 (rows_opcodes op ▸ hb)) rest

/-- No instruction is wider than the three bytes a fetch reads (R64). -/
theorem length_encodeWith_le (op : Opcodes) (i : Instr) : (encodeWith op i).length ≤ 3 := by
  cases i <;> simp [encodeWith, Instr.operandBytes]

end Sys2Proof

namespace Sys2Proof.Machine

/-- Bytes that stand in the cells from `n` on are the first that a fetch there reads. -/
theorem bytesFrom_of_holds {m : Memory} {bytes : List Byte} {count n : Nat} (hlen : bytes.length ≤ count)
    (h : ∀ k b, bytes[k]? = some b → m.byteAt? (n + k) = some b) :
    ∃ rest, m.bytesFrom count n = bytes ++ rest := by
  induction bytes generalizing count n with
  | nil => exact ⟨_, rfl⟩
  | cons c bytes ih =>
    obtain _ | count := count
    · cases hlen
    have hhead : m.byteAt? n = some c := h 0 c rfl
    have htail : ∀ k b, bytes[k]? = some b → m.byteAt? (n + 1 + k) = some b := fun k b hk => by
      rw [Nat.add_assoc, Nat.add_comm 1]
      exact h (k + 1) b hk
    obtain ⟨rest, hrest⟩ := ih (Nat.le_of_succ_le_succ hlen) htail
    exact ⟨rest, by rw [bytesFrom_cons m count hhead, hrest, List.cons_append]⟩

/-- The bytes of an instruction at `pc` are fetched as that instruction. -/
theorem fetchWith_of_holds {op : Opcodes} {s : State} {i : Instr} (hd : op.Distinct)
    (h : ∀ k b, (encodeWith op i)[k]? = some b → s.mem.byteAt? (s.pc + k) = some b) :
    fetchWith op s = .ok i := by
  obtain ⟨rest, hrest⟩ := bytesFrom_of_holds (length_encodeWith_le op i) h
  exact fetchWith_ok.2 ⟨rest, by rw [hrest, decodeWith_encodeWith hd]⟩

/-- A byte at `pc` that is none of the map's opcodes makes the fetch raise (R93). -/
theorem fetchWith_of_notMem {op : Opcodes} {s : State} {b : Byte} (hpc : s.mem.byteAt? s.pc = some b)
    (hb : b ∉ op.all) : fetchWith op s = .error (.invalidOpcode, b.toNat) := by
  apply fetchWith_error (e := .invalidOpcode b)
  rw [bytesFrom_cons s.mem 2 hpc, decodeWith_of_notMem hb]

/-- A live state steps, under any opcode map, by fetching and executing. -/
theorem stepWith_of_live (op : Opcodes) {s : State} (h : s.live) : stepWith op s = runStepWith op s.begun := by
  unfold stepWith
  rcases h with h | h <;> simp [h]

/-- After Halted or Faulted a step changes nothing (R35, R86). -/
theorem stepWith_of_final (op : Opcodes) {s : State} (h : s.status.isFinal = true) : stepWith op s = .next s := by
  unfold stepWith
  split
  · next hs => simp [hs, Status.isFinal] at h
  · next hs => simp [hs, Status.isFinal] at h
  · rfl
  · rfl

/-- A live state that fetches an instruction executes it. -/
theorem stepWith_of_fetch_ok {op : Opcodes} {s : State} {i : Instr} (hl : s.live) (hf : fetchWith op s = .ok i) :
    stepWith op s = exec i s.begun := by
  rw [stepWith_of_live op hl, runStepWith, fetchWith_begun, hf]

/-- A fault raised as a step begins leaves the state before that step, but for status and record (R131). -/
theorem raise_begun (s : State) (kind : FaultKind) (detail : Nat) :
    s.begun.raise kind detail = s.faultedWith ⟨kind, s.pc, s.mem.byteAt? s.pc, detail⟩ := by
  simp [State.raise, State.faultedWith]

/-- A live state whose fetch raises is stopped by that fault and otherwise unchanged (R131). -/
theorem stepWith_of_fetch_error {op : Opcodes} {s : State} {kind : FaultKind} {detail : Nat} (hl : s.live)
    (hf : fetchWith op s = .error (kind, detail)) :
    stepWith op s = .next (s.faultedWith ⟨kind, s.pc, s.mem.byteAt? s.pc, detail⟩) := by
  rw [stepWith_of_live op hl, runStepWith, fetchWith_begun, hf]
  exact congrArg _ (raise_begun s kind detail)

end Sys2Proof.Machine
end

section
/-! PROOFS. A run with fuel and the steps of the machine come to the same final states. -/

namespace Sys2Proof.Machine

/-- All that a run of `k + 1` steps with a next state can be: a step, and a run of `k` from where it came to. -/
theorem run_succ_eq_next {M : Host.Core} {s t : M.State} {k : Nat} :
    M.run (k + 1) s = .next t ↔ ∃ u, M.step s = .next u ∧ M.run k u = .next t := by
  rw [Host.Core.run.eq_2]
  cases M.step s <;> simp

/-- A run stays where a step changes nothing. -/
theorem run_of_step_self {M : Host.Core} {s : M.State} (h : M.step s = .next s) (k : Nat) : M.run k s = .next s := by
  induction k with
  | zero => rfl
  | succ k ih => rw [run_succ M k h, ih]

/-- All that a run with fuel which has not ended and returns a state can be: a step, and a run from where it came to
(R85). -/
theorem runFuelWith_succ_eq_some {op : Opcodes} {s t : State} {n : Nat} (h : s.status.isFinal = false) :
    s.runFuelWith op (n + 1) = some t ↔ ∃ u, stepWith op s = .next u ∧ u.runFuelWith op n = some t := by
  simp only [State.runFuelWith, h, Bool.false_eq_true, if_false]
  cases stepWith op s <;> simp

/-- A run that starts in a final status returns that state (R86). -/
theorem eq_of_runFuelWith_of_final {op : Opcodes} {s t : State} {n : Nat} (hs : s.status.isFinal = true)
    (h : s.runFuelWith op n = some t) : s = t :=
  Option.some.inj ((runFuelWith_of_final op hs n).symm.trans h)

/-- Steps from a final status come to that state (R35, R86). -/
theorem eq_of_run_of_final {op : Opcodes} {p : ResetParams} {s t : State} {k : Nat} (hs : s.status.isFinal = true)
    (h : (coreWith op p).run k s = .next t) : s = t :=
  Host.Outcome.next.inj ((run_of_step_self (M := coreWith op p) (stepWith_of_final op hs) k).symm.trans h)

/-- The state a run returns is one the machine steps to, with a final status (R98). -/
theorem run_of_runFuelWith {op : Opcodes} (p : ResetParams) {s t : State} {n : Nat} (h : s.runFuelWith op n = some t) :
    ∃ k : Nat, (coreWith op p).run k s = .next t ∧ t.status.isFinal = true := by
  induction n generalizing s with
  | zero =>
    cases hs : s.status.isFinal with
    | true =>
      obtain rfl := eq_of_runFuelWith_of_final hs h
      exact ⟨0, rfl, hs⟩
    | false =>
      rw [runFuelWith_zero op hs] at h
      cases h
  | succ n ih =>
    cases hs : s.status.isFinal with
    | true =>
      obtain rfl := eq_of_runFuelWith_of_final hs h
      exact ⟨0, rfl, hs⟩
    | false =>
      obtain ⟨u, hstep, hu⟩ := (runFuelWith_succ_eq_some hs).1 h
      obtain ⟨k, hrun, ht⟩ := ih hu
      exact ⟨k + 1, (coreWith_run_succ op p k hstep).trans hrun, ht⟩

/-- A final state that the machine steps to is what a run returns, with as much fuel as steps (R86, R98). -/
theorem runFuelWith_of_run {op : Opcodes} {p : ResetParams} {s t : State} {k : Nat}
    (h : (coreWith op p).run k s = .next t) (ht : t.status.isFinal = true) : s.runFuelWith op k = some t := by
  induction k generalizing s with
  | zero =>
    cases h
    exact runFuelWith_of_final op ht 0
  | succ k ih =>
    cases hs : s.status.isFinal with
    | true =>
      obtain rfl := eq_of_run_of_final hs h
      exact runFuelWith_of_final op hs (k + 1)
    | false =>
      obtain ⟨u, hstep, hrun⟩ := run_succ_eq_next.1 h
      exact (runFuelWith_succ_eq_some hs).2 ⟨u, hstep, ih hrun⟩

/-- A run returns exactly the final states the machine's steps come to, whatever the opcode map. -/
theorem runFuelWith_iff_run (op : Opcodes) (p : ResetParams) (s t : State) :
    (∃ n, s.runFuelWith op n = some t) ↔
      ∃ k : Nat, (coreWith op p).run k s = .next t ∧ t.status.isFinal = true :=
  ⟨fun ⟨_, h⟩ => run_of_runFuelWith p h, fun ⟨k, h, ht⟩ => ⟨k, runFuelWith_of_run h ht⟩⟩

/-- Settles O53: a step runs what it fetches and a fetch reads the map it is given; a run and the machine's steps agree by
induction on fuel and on steps. The last two clauses hold by definition: the defaults are those of CORE. -/
theorem anyOpcodeMapRuns : Obligations.AnyOpcodeMapRuns := by
  unfold Obligations.AnyOpcodeMapRuns
  refine ⟨fun op s i hd hl h => ?_, fun op s b hl hpc hb => ?_, runFuelWith_iff_run, fun _ _ => ⟨rfl, rfl⟩, rfl⟩
  · exact stepWith_of_fetch_ok hl (fetchWith_of_holds hd h)
  · rw [stepWith_of_fetch_error hl (fetchWith_of_notMem hpc hb), hpc]

end Sys2Proof.Machine
end

section
/-! PROOFS. No instruction reads G or L (R29): `exec` and a step keep two states apart in G and L alone. -/

namespace Sys2Proof.Machine

/-- `s` with other values of G and L. -/
def State.setGL (s : State) (g l : Bool) : State := s.setFlags { s.flags with g, l }

/-- The states that differ from `s` in nothing but G and L are those with other values of G and L. -/
theorem sameButGL_iff {s u : State} : SameButGL s u ↔ ∃ g l, u = s.setGL g l := by
  constructor
  · intro h
    exact ⟨u.flags.g, u.flags.l, h⟩
  · rintro ⟨g, l, rfl⟩
    rfl

/-- Two results that are both next states, which differ in nothing but G and L. -/
def AgreeButGL (p q : Result) : Prop := ∃ t v, p = .next t ∧ q = .next v ∧ SameButGL t v

theorem AgreeButGL.next {t v : State} (h : SameButGL t v) : AgreeButGL (.next t) (.next v) :=
  ⟨t, v, rfl, rfl, h⟩

/-- Raising writes no flag and reads none (R131). -/
theorem AgreeButGL.trap (kind : FaultKind) (detail : Nat) (s : State) (g l : Bool) :
    AgreeButGL (trap kind detail s) (trap kind detail (s.setGL g l)) := .next rfl

/-- The check of a register operand reads no flag (R95). -/
theorem AgreeButGL.withReg {run run' : RegIx → Result} (ra : Byte) (s : State) (g l : Bool)
    (h : ∀ r, AgreeButGL (run r) (run' r)) :
    AgreeButGL (withReg ra s run) (withReg ra (s.setGL g l) run') := by
  cases hr : regIndex? ra with
  | some r =>
    rw [withReg_some hr, withReg_some hr]
    exact h r
  | none =>
    rw [withReg_none hr, withReg_none hr]
    exact .next rfl

theorem AgreeButGL.withRegs {run run' : RegIx → RegIx → Result} (ra rb : Byte) (s : State) (g l : Bool)
    (h : ∀ r q, AgreeButGL (run r q) (run' r q)) :
    AgreeButGL (withRegs ra rb s run) (withRegs ra rb (s.setGL g l) run') :=
  .withReg ra s g l fun r => .withReg rb s g l fun q => h r q

/-- A check that both states answer alike. -/
theorem AgreeButGL.ite {c : Prop} [Decidable c] {p p' q q' : Result} (hp : AgreeButGL p p')
    (hq : AgreeButGL q q') : AgreeButGL (if c then p else q) (if c then p' else q') := by
  split
  · exact hp
  · exact hq

/-- A jump taken on the same condition goes to the same place (R110). -/
theorem AgreeButGL.branch (taken : Bool) (ra : Byte) (s : State) (g l : Bool) :
    AgreeButGL (branch taken ra s) (branch taken ra (s.setGL g l)) :=
  .withReg ra s g l fun _ => by cases taken <;> exact .next rfl

/-- The execute stage reads E alone of the flags (R29). -/
theorem exec_setGL (i : Instr) (s : State) (g l : Bool) : AgreeButGL (exec i s) (exec i (s.setGL g l)) := by
  cases i with
  | hlt => exact .next rfl
  | ldi ra imm => exact .withReg ra s g l fun _ => .next rfl
  | prn ra => exact .withReg ra s g l fun _ => .next rfl
  | add ra rb => exact .withRegs ra rb s g l fun _ _ => .next rfl
  | mul ra rb => exact .withRegs ra rb s g l fun _ _ => .next rfl
  | cmp ra rb => exact .withRegs ra rb s g l fun _ _ => .next rfl
  | jmp ra => exact .branch true ra s g l
  | jeq ra => exact .branch s.flags.e ra s g l
  | jne ra => exact .branch (!s.flags.e) ra s g l
  | push ra => exact .withReg ra s g l fun _ => .ite (.trap _ _ s g l) (.next rfl)
  | pop ra => exact .withReg ra s g l fun _ => .ite (.trap _ _ s g l) (.next rfl)
  | call ra => exact .withReg ra s g l fun _ => .ite (.trap _ _ s g l) (.ite (.trap _ _ s g l) (.next rfl))
  | ret => exact .ite (.trap _ _ s g l) (.next rfl)

/-- Neither the fetch nor the execute stage of a step reads G or L. -/
theorem runStepWith_setGL (op : Opcodes) (s : State) (g l : Bool) :
    AgreeButGL (runStepWith op s) (runStepWith op (s.setGL g l)) := by
  have hfetch : fetchWith op (s.setGL g l) = fetchWith op s := rfl
  unfold runStepWith
  rw [hfetch]
  cases fetchWith op s with
  | ok i => exact exec_setGL i s g l
  | error e => exact .trap e.1 e.2 s g l

/-- The start of a step looks at the status alone (R85). -/
theorem begun_setGL (s : State) (g l : Bool) : (s.setGL g l).begun = s.begun.setGL g l := by
  obtain ⟨x, pc, flags, mem, status, fault, out⟩ := s
  cases status <;> rfl

/-- A step, in any status and under any opcode map, reads neither G nor L. -/
theorem stepWith_setGL (op : Opcodes) (s : State) (g l : Bool) :
    AgreeButGL (stepWith op s) (stepWith op (s.setGL g l)) := by
  have hlive (h : s.live) : AgreeButGL (stepWith op s) (stepWith op (s.setGL g l)) := by
    have h' : (s.setGL g l).live := h
    rw [stepWith_of_live op h, stepWith_of_live op h', begun_setGL]
    exact runStepWith_setGL op s.begun g l
  have hfinal (h : s.status.isFinal = true) : AgreeButGL (stepWith op s) (stepWith op (s.setGL g l)) := by
    have h' : (s.setGL g l).status.isFinal = true := h
    rw [stepWith_of_final op h, stepWith_of_final op h']
    exact .next rfl
  cases hs : s.status with
  | ready => exact hlive (.inl hs)
  | running => exact hlive (.inr hs)
  | halted => exact hfinal (by rw [hs]; rfl)
  | faulted => exact hfinal (by rw [hs]; rfl)

/-- Settles O44: the two steps fetch the same instruction, and each instruction's meaning reads of the flags E alone. -/
theorem greaterAndLessAreNeverRead : Obligations.GreaterAndLessAreNeverRead := by
  unfold Obligations.GreaterAndLessAreNeverRead
  intro s u t v hsu hs hu
  obtain ⟨g, l, rfl⟩ := sameButGL_iff.1 hsu
  obtain ⟨t', v', ht, hv, htv⟩ := stepWith_setGL OPCODE s g l
  obtain rfl : t' = t := Host.Outcome.next.inj (ht.symm.trans hs)
  obtain rfl : v' = v := Host.Outcome.next.inj (hv.symm.trans hu)
  exact htv

end Sys2Proof.Machine
end

section
/-! PROOFS. What each instruction does to the flags, to `pc` and to the output, from the cases of `Ran`. -/

namespace Sys2Proof.Machine

/-- An instruction that leaves a running core Faulted has raised, and done nothing else (R131). -/
theorem Ran.eq_raise {i : Instr} {s t : State} (h : Ran i s t) (hs : s.status = .running)
    (ht : t.status = .faulted) : ∃ kind detail, t = s.raise kind detail := by
  have kept (hst : t.status = s.status) : ∃ kind detail, t = s.raise kind detail := by
    rw [hst, hs] at ht
    cases ht
  cases h with
  | hlt => cases ht
  | pushOverflow | popUnderflow | callOverflow | callAddress | retUnderflow | badIndex => exact ⟨_, _, rfl⟩
  | jeq | jne => exact kept (by split <;> rfl)
  | _ => exact kept rfl

/-! ### The flags -/

theorem exec_cmp (r q : RegIx) (s : State) :
    exec (.cmp (regByte r) (regByte q)) s = .next ((s.setFlags (Flags.compare (s.reg r) (s.reg q))).advance 3) := by
  simp only [exec, execCmp, withRegs_regByte]

/-- All that CMP of two registers leaves in the flags: their comparison (R108). -/
theorem flags_of_exec_cmp {r q : RegIx} {s t : State} (h : exec (.cmp (regByte r) (regByte q)) s = .next t) :
    t.flags = Flags.compare (s.reg r) (s.reg q) := by
  rw [exec_cmp] at h
  cases h
  rfl

/-- Two bytes are equal, or one is the greater: a comparison makes exactly one flag true (R28). -/
theorem Flags.count_compare (u v : Byte) : (Flags.compare u v).count = 1 := by
  rcases lt_trichotomy u.toNat v.toNat with h | h | h
  · simp [Flags.compare, Flags.count, h, h.ne, h.not_gt]
  · simp [Flags.compare, Flags.count, h]
  · simp [Flags.compare, Flags.count, h, h.ne', h.not_gt]

/-- Every instruction but CMP leaves the flags alone, faulting or not (R28). -/
theorem Ran.flags_eq {i : Instr} {s t : State} (h : Ran i s t) (hi : ∀ a b, i ≠ .cmp a b) : t.flags = s.flags := by
  cases h with
  | cmp r q => exact absurd rfl (hi _ _)
  | jeq | jne => split <;> rfl
  | _ => rfl

/-- A step of a live core that raises leaves the flags alone, whether the fetch or an instruction raised (R131). -/
theorem flags_of_step_faulted {s t : State} (hl : s.live) (h : step s = .next t) (ht : t.status = .faulted) :
    t.flags = s.flags := by
  have raised (kind : FaultKind) (detail : Nat) : (s.begun.raise kind detail).flags = s.flags := begun_flags s
  rcases step_ran hl h with ⟨i, -, hran⟩ | ⟨kind, detail, -, rfl⟩
  · obtain ⟨kind, detail, rfl⟩ := hran.eq_raise (begun_status hl) ht
    exact raised kind detail
  · exact raised kind detail

/-- All that a `load` which succeeds does: it writes the program to memory, in status Ready (R81, R82). -/
theorem load_eq_ok {s t : State} {bytes : List Byte} :
    s.load bytes = .ok t ↔
      s.status = .ready ∧ bytes.length ≤ memSize ∧ t = { s with mem := s.mem.writeFrom 0 bytes } := by
  unfold State.load
  split
  · next hs => simp [hs]
  · next hs =>
    split
    · next hlen => simp [hlen.not_ge]
    · next hlen => simp [not_not.1 hs, not_lt.1 hlen, eq_comm]

/-- Settles O38: CMP sets the flags to a comparison of the two registers, which has one flag true; the rest is the frame
of the flags. -/
theorem onlyCompareWritesTheFlags : Obligations.OnlyCompareWritesTheFlags := by
  unfold Obligations.OnlyCompareWritesTheFlags
  refine ⟨fun a b s t h => ?_, fun a b s u t t' hx ht ht' => ?_, fun i s t hi h => (exec_ran h).flags_eq hi,
    fun s t => flags_of_step_faulted, fun s t bytes h => ?_, begun_flags⟩
  · rw [flags_of_exec_cmp h, Flags.count_compare]
  · have hreg (r : RegIx) : s.reg r = u.reg r := by rw [State.reg, State.reg, hx]
    rw [flags_of_exec_cmp ht, flags_of_exec_cmp ht', hreg a, hreg b]
  · obtain ⟨-, -, rfl⟩ := load_eq_ok.1 h
    rfl

/-! ### The program counter -/

@[simp] theorem regAt_regByte (s : State) (r : RegIx) : regAt s (regByte r) = (s.reg r).toNat := by
  simp only [regAt, regIndex?_regByte, State.target]

/-- An instruction that does not raise sets `pc` to its target, or advances it by its width where it has none (R25). -/
theorem Ran.pc_eq {i : Instr} {s t : State} (h : Ran i s t) (ht : t.status ≠ .faulted) :
    t.pc = (transferOf i s).getD (s.pc + i.width) := by
  cases h with
  | pushOverflow | popUnderflow | callOverflow | callAddress | retUnderflow | badIndex => exact absurd rfl ht
  | jmp r => simp [transferOf]
  | jeq r => cases he : s.flags.e <;> simp [transferOf, he, Instr.width]
  | jne r => cases he : s.flags.e <;> simp [transferOf, he, Instr.width]
  | call r =>
    have htarget : s.pushReturn.target r = (s.decSP.reg r).toNat := rfl
    simp [transferOf, htarget]
  | _ => rfl

/-- Settles O39: an instruction that faults has only raised, which leaves `pc`; each that does not is a case of
`Ran.pc_eq`. -/
theorem pcIsAdvancedOrSet : Obligations.PcIsAdvancedOrSet := by
  unfold Obligations.PcIsAdvancedOrSet
  intro i s t hs h
  refine ⟨fun ht => ?_, (exec_ran h).pc_eq⟩
  obtain ⟨kind, detail, rfl⟩ := (exec_ran h).eq_raise hs ht
  exact State.raise_pc s kind detail

/-! ### The output -/

theorem exec_prn (r : RegIx) (s : State) :
    exec (.prn (regByte r)) s = .next ((s.emit (s.reg r)).advance 2) := by
  simp only [exec, execPrn, withReg_regByte]

/-- An operand byte above 7 names no register (R70). -/
theorem regIndex?_of_gt {b : Byte} (h : 7 < b.toNat) : regIndex? b = none := dif_neg (not_lt.2 h)

/-- Every instruction but PRN leaves the output alone, faulting or not (R37). -/
theorem Ran.out_eq {i : Instr} {s t : State} (h : Ran i s t) (hi : ∀ ra, i ≠ .prn ra) : t.out = s.out := by
  cases h with
  | prn r => exact absurd rfl (hi _)
  | jeq | jne => split <;> rfl
  | _ => rfl

/-- Settles O42: PRN of a register emits it, PRN of an operand above 7 raises, and every other instruction has the
output in its frame. -/
theorem onlyPrintEmits : Obligations.OnlyPrintEmits := by
  unfold Obligations.OnlyPrintEmits
  refine ⟨rfl, fun r s => ⟨_, exec_prn r s, rfl⟩, fun ra s t hra h => ?_, fun i s t hi h => (exec_ran h).out_eq hi⟩
  have hraise : exec (.prn ra) s = .next (s.raise (.outOfBounds .register) ra.toNat) :=
    withReg_none (regIndex?_of_gt hra) s _
  rw [hraise] at h
  cases h
  rfl

end Sys2Proof.Machine
end

section
/-! PROOFS. The frame of memory, and when the host reads a state or loads a program. -/

namespace Sys2Proof.Machine

/-! ### Memory -/

/-- All that an instruction can do to memory: leave it, or, where it is one that stores, write the cell at the decremented
SP (R45, R50). -/
theorem Ran.mem_eq_or_write {i : Instr} {s t : State} (h : Ran i s t) :
    t.mem = s.mem ∨ (storesOf i s = [s.pushAddr] ∧ ∃ v, t.mem = s.mem.write s.pushAddr v) := by
  cases h with
  | push | call => exact .inr ⟨rfl, _, rfl⟩
  | jeq | jne => exact .inl (by split <;> rfl)
  | _ => exact .inl rfl

theorem sameMemoryBut_of_mem_eq {s t : State} (h : t.mem = s.mem) (as : List Addr) : SameMemoryBut as s t :=
  fun a _ => congrArg (·.read a) h

/-- A write of one cell leaves every other (R52). -/
theorem sameMemoryBut_of_mem_write {s t : State} {a : Addr} {v : Byte} (h : t.mem = s.mem.write a v) :
    SameMemoryBut [a] s t := by
  intro b hb
  rw [State.readByte, h]
  exact Memory.read_write_ne s.mem v (List.mem_singleton.not.1 hb)

/-- Settles O41: an instruction leaves memory or writes the one cell it stores to. -/
theorem memoryChangesOnlyAtTheStackCell : Obligations.MemoryChangesOnlyAtTheStackCell := by
  unfold Obligations.MemoryChangesOnlyAtTheStackCell
  intro i s t h
  rcases (exec_ran h).mem_eq_or_write with hkept | ⟨hstores, v, hwrite⟩
  · exact sameMemoryBut_of_mem_eq hkept _
  · rw [hstores]
    exact sameMemoryBut_of_mem_write hwrite

/-! ### The host's reads -/

/-- A run returns only states in a final status (R86, R98). -/
theorem isFinal_of_runFuelWith {op : Opcodes} {s t : State} {n : Nat} (h : s.runFuelWith op n = some t) :
    t.status.isFinal = true := by
  obtain ⟨_, -, ht⟩ := run_of_runFuelWith resetParams h
  exact ht

/-- In a final status inspection shows the state (R89). -/
theorem inspect_of_final {s : State} (h : s.status.isFinal = true) :
    s.inspect = some { x := s.x, pc := s.pc, flags := s.flags, mem := s.mem, out := s.out } :=
  inspect_eq_some.2 ⟨h, rfl⟩

/-- Ready and Running are not final (R35). -/
theorem State.live.isFinal_eq_false {s : State} (h : s.live) : s.status.isFinal = false := by
  rcases h with h | h <;> rw [h] <;> rfl

theorem inspect_of_live {s : State} (h : s.live) : s.inspect = none :=
  if_neg (by simp [h.isFinal_eq_false])

theorem faultReport_of_live {s : State} (h : s.live) : s.faultReport = none := by
  rcases h with h | h <;> simp only [State.faultReport, h]

theorem outcome_of_live {s : State} (h : s.live) : s.outcome = none := by
  rcases h with h | h <;> simp only [State.outcome, h]

/-- Outside status Ready `load` fails, whatever the bytes (R81). -/
theorem load_of_not_ready {s : State} (h : s.status ≠ .ready) (bytes : List Byte) :
    s.load bytes = .error .notReady := if_pos h

/-- Settles O51: a run ends in a final status, where inspection shows the state; a live state is in no final status. -/
theorem hostReadsTheStateOnlyAfterARun : Obligations.HostReadsTheStateOnlyAfterARun := by
  unfold Obligations.HostReadsTheStateOnlyAfterARun
  refine ⟨fun s t n h => ?_, fun s h => ⟨inspect_of_live h, faultReport_of_live h, outcome_of_live h⟩,
    fun s bytes h => load_of_not_ready (by simp [h]) bytes⟩
  have hview := inspect_of_final (isFinal_of_runFuelWith h)
  exact ⟨_, hview, fun _ => rfl, rfl, rfl, fun _ => rfl, rfl⟩

end Sys2Proof.Machine
end

section
/-! PROOFS. What decodes: the row that is read tells the instruction's opcode, width and operand bytes (R63 to R67). -/

namespace Sys2Proof

/-- What a row of the table reads is an instruction of that row's opcode and width, whose operand bytes are the bytes
read: the converse of `opcode_row`. -/
theorem eq_of_row_read {op : Opcodes} {c b : Byte} {f : Format} {bytes rest : List Byte} {i : Instr}
    (hrow : (c, f) ∈ op.rows) (h : f.read b bytes = .ok (i, rest)) :
    c = i.opcodeWith op ∧ f.width = i.width ∧ bytes = i.operandBytes ++ rest := by
  rcases read_ok h with ⟨rfl, rfl⟩ | ⟨mk, x, rfl, rfl, rfl⟩ | ⟨mk, x, y, rfl, rfl, rfl⟩
  · have hi : c = op.hlt ∧ i = .hlt ∨ c = op.ret ∧ i = .ret := by simpa [Opcodes.rows] using hrow
    obtain ⟨rfl, rfl⟩ | ⟨rfl, rfl⟩ := hi
    all_goals exact ⟨rfl, rfl, rfl⟩
  · have hmk : c = op.prn ∧ mk = .prn ∨ c = op.jmp ∧ mk = .jmp ∨ c = op.jeq ∧ mk = .jeq ∨ c = op.jne ∧ mk = .jne ∨
        c = op.push ∧ mk = .push ∨ c = op.pop ∧ mk = .pop ∨ c = op.call ∧ mk = .call := by
      simpa [Opcodes.rows] using hrow
    obtain ⟨rfl, rfl⟩ | ⟨rfl, rfl⟩ | ⟨rfl, rfl⟩ | ⟨rfl, rfl⟩ | ⟨rfl, rfl⟩ | ⟨rfl, rfl⟩ | ⟨rfl, rfl⟩ := hmk
    all_goals exact ⟨rfl, rfl, rfl⟩
  · have hmk : c = op.ldi ∧ mk = .ldi ∨ c = op.add ∧ mk = .add ∨ c = op.mul ∧ mk = .mul ∨ c = op.cmp ∧ mk = .cmp := by
      simpa [Opcodes.rows] using hrow
    obtain ⟨rfl, rfl⟩ | ⟨rfl, rfl⟩ | ⟨rfl, rfl⟩ | ⟨rfl, rfl⟩ := hmk
    all_goals exact ⟨rfl, rfl, rfl⟩

/-- All that bytes which decode can be: the opcode of the instruction, which names its width, its operand bytes, and the
rest (R62, R64, R67). -/
theorem eq_of_decodeWith_cons {op : Opcodes} {b : Byte} {bytes rest : List Byte} {i : Instr}
    (h : decodeWith op (b :: bytes) = .ok (i, rest)) :
    b = i.opcodeWith op ∧ widthOf? op b = some i.width ∧ bytes = i.operandBytes ++ rest := by
  cases hf : formatIn op.rows b with
  | none =>
    rw [decodeWith_none hf] at h
    cases h
  | some f =>
    rw [decodeWith_some hf] at h
    obtain ⟨hopcode, hwidth, hbytes⟩ := eq_of_row_read (formatIn_mem hf) h
    exact ⟨hopcode, by rw [widthOf?, hf, Option.map_some, hwidth], hbytes⟩

/-- Bytes that decode are the encoding of the instruction, and the rest (R62). -/
theorem eq_encodeWith_of_decodeWith {op : Opcodes} {bytes rest : List Byte} {i : Instr}
    (h : decodeWith op bytes = .ok (i, rest)) : bytes = encodeWith op i ++ rest := by
  cases bytes with
  | nil => cases h
  | cons b bytes =>
    obtain ⟨rfl, -, rfl⟩ := eq_of_decodeWith_cons h
    rfl

/-- An instruction encodes in as many bytes as R64 says. -/
theorem length_encodeWith (op : Opcodes) : ∀ i : Instr, (encodeWith op i).length = i.width
  | .hlt => Laws.EncodedWidth.hlt op
  | .ldi ra imm => Laws.EncodedWidth.ldi ra imm op
  | .prn ra => Laws.EncodedWidth.prn ra op
  | .add ra rb => Laws.EncodedWidth.add ra rb op
  | .mul ra rb => Laws.EncodedWidth.mul ra rb op
  | .cmp ra rb => Laws.EncodedWidth.cmp ra rb op
  | .jmp ra => Laws.EncodedWidth.jmp ra op
  | .jeq ra => Laws.EncodedWidth.jeq ra op
  | .jne ra => Laws.EncodedWidth.jne ra op
  | .push ra => Laws.EncodedWidth.push ra op
  | .pop ra => Laws.EncodedWidth.pop ra op
  | .call ra => Laws.EncodedWidth.call ra op
  | .ret => Laws.EncodedWidth.ret op

/-- Decoding takes as many bytes as the instruction is wide (R64). -/
theorem length_of_decodeWith {op : Opcodes} {bytes rest : List Byte} {i : Instr}
    (h : decodeWith op bytes = .ok (i, rest)) : bytes.length = i.width + rest.length := by
  rw [eq_encodeWith_of_decodeWith h, List.length_append, length_encodeWith]

/-- A byte that is no opcode has no width (R64). -/
theorem widthOf?_of_notMem {op : Opcodes} {b : Byte} (hb : b ∉ op.all) : widthOf? op b = none := by
  rw [widthOf?, formatIn_none.2 (rows_opcodes op ▸ hb), Option.map_none]

/-- A first byte is rejected as an opcode exactly where it is none of the map's: the rows fail to be read only by being
truncated (R67, R93). -/
theorem decodeWith_eq_invalidOpcode {op : Opcodes} {b : Byte} {rest : List Byte} :
    decodeWith op (b :: rest) = .error (.invalidOpcode b) ↔ b ∉ op.all := by
  refine ⟨fun h => ?_, fun hb => decodeWith_of_notMem hb rest⟩
  rw [← rows_opcodes, ← formatIn_none]
  cases hf : formatIn op.rows b with
  | none => rfl
  | some f =>
    rw [decodeWith_some hf] at h
    cases (read_error.1 h).1

/-- Settles O20: the bytes that decode are those of the instruction and the rest, and the former are as many as its
width. -/
theorem encodeOfDecodeIsTheBytes : Obligations.EncodeOfDecodeIsTheBytes := by
  unfold Obligations.EncodeOfDecodeIsTheBytes
  exact fun _ _ _ _ h => ⟨eq_encodeWith_of_decodeWith h, length_of_decodeWith h⟩

/-- Settles O21: the opcode byte finds a row, whose format has the width of every instruction it makes; the listed values
hold by definition. -/
theorem widthIsAFunctionOfTheOpcode : Obligations.WidthIsAFunctionOfTheOpcode := by
  unfold Obligations.WidthIsAFunctionOfTheOpcode
  refine ⟨fun op b rest after i h => ?_, fun op b => widthOf?_of_notMem, fun x y => ?_⟩
  · obtain ⟨-, hwidth, -⟩ := eq_of_decodeWith_cons h
    exact ⟨hwidth, length_of_decodeWith h⟩
  · simp only [Instr.width, and_self]

/-- Settles O22: a byte that finds a row is that row's opcode, and one that finds none is none of the 13. -/
theorem opcodeMatchesTheWholeByte : Obligations.OpcodeMatchesTheWholeByte := by
  unfold Obligations.OpcodeMatchesTheWholeByte
  refine ⟨fun op b rest after i h => ?_, fun op b rest => decodeWith_eq_invalidOpcode⟩
  obtain ⟨hopcode, -, -⟩ := eq_of_decodeWith_cons h
  exact hopcode

end Sys2Proof

namespace Sys2Proof.Machine

/-- The opcode values of R66 are pairwise distinct (R69). -/
theorem opcode_distinct : OPCODE.Distinct := by decide

/-- Settles O9: under distinct opcodes the bytes at `pc` are fetched as their instruction, whatever bytes follow. -/
theorem stepRunsTheBytesAtPc : Obligations.StepRunsTheBytesAtPc := by
  unfold Obligations.StepRunsTheBytesAtPc
  exact fun s i hl h => stepWith_of_fetch_ok hl (fetchWith_of_holds opcode_distinct h)

end Sys2Proof.Machine
end

section
/-! PROOFS. What one step answers (R97), what it does to the status and the record, and how long a run goes on (R98). -/

namespace Sys2Proof.Machine

/-! ### The outcome of a step -/

/-- Every step answers a next state (R97, log 1): `stepWith_setGL` says so of any step, along with its frame. -/
theorem exists_step_eq_next (s : State) : ∃ t, step s = .next t := by
  obtain ⟨t, -, ht, -⟩ := stepWith_setGL OPCODE s s.flags.g s.flags.l
  exact ⟨t, ht⟩

/-- The status of an instruction that does not raise: Halted after HLT, and after every other as it was (R98). -/
theorem Ran.status_eq {i : Instr} {s t : State} (h : Ran i s t) (ht : t.status ≠ .faulted) :
    t.status = if i = .hlt then .halted else s.status := by
  cases h with
  | pushOverflow | popUnderflow | callOverflow | callAddress | retUnderflow | badIndex => exact absurd rfl ht
  | jeq | jne => split <;> rfl
  | _ => rfl

/-- A step of a live core goes on, or stops it by a fault or by a HLT it fetched (R97, R98). -/
theorem status_of_step {s t : State} (hl : s.live) (h : step s = .next t) :
    t.status = .running ∨ (t.status = .halted ∧ fetchWith OPCODE s = .ok .hlt) ∨ t.status = .faulted := by
  rcases step_ran hl h with ⟨i, hfetch, hran⟩ | ⟨kind, detail, -, rfl⟩
  · by_cases ht : t.status = .faulted
    · exact .inr (.inr ht)
    · have hstatus := hran.status_eq ht
      by_cases hi : i = .hlt
      · subst hi
        exact .inr (.inl ⟨hstatus, hfetch⟩)
      · rw [if_neg hi, begun_status hl] at hstatus
        exact .inl hstatus
  · exact .inr (.inr rfl)

/-- Settles O7: a step answers a next state, and the status of that state is one of the three of `status_of_step`. -/
theorem stepHasExactlyOneOutcome : Obligations.StepHasExactlyOneOutcome := by
  unfold Obligations.StepHasExactlyOneOutcome
  intro s
  obtain ⟨t, ht⟩ := exists_step_eq_next s
  refine ⟨t, ht, fun u hu => Host.Outcome.next.inj (hu.symm.trans ht), fun hl => ?_⟩
  exact (status_of_step hl ht).imp_right (.imp_left And.left)

/-! ### The fault InvalidOpcode -/

/-- An instruction leaves the record alone or raises, and InvalidOpcode is no fault of the execute stage (R125). -/
theorem Ran.fault_eq_or_raise {i : Instr} {s t : State} (h : Ran i s t) :
    t.fault = s.fault ∨ ∃ kind detail, kind ≠ .invalidOpcode ∧ t = s.raise kind detail := by
  cases h with
  | pushOverflow | popUnderflow | callOverflow | callAddress | retUnderflow | badIndex =>
    exact .inr ⟨_, _, by nofun, rfl⟩
  | jeq | jne => exact .inl (by split <;> rfl)
  | _ => exact .inl rfl

/-- Bytes that begin with an opcode of the map fail to decode only by being truncated (R94). -/
theorem eq_truncated_of_mem {op : Opcodes} {b : Byte} {rest : List Byte} {e : DecodeError} (hb : b ∈ op.all)
    (h : decodeWith op (b :: rest) = .error e) : e = .truncated b := by
  cases hf : formatIn op.rows b with
  | none => exact absurd hb (rows_opcodes op ▸ formatIn_none.1 hf)
  | some f =>
    rw [decodeWith_some hf] at h
    exact (read_error.1 h).1

/-- With an opcode of the map at `pc` a fetch raises only for an operand past memory (R94). -/
theorem eq_operandFetch_of_mem {op : Opcodes} {s : State} {b : Byte} {e : FaultKind × Nat}
    (hpc : s.mem.byteAt? s.pc = some b) (hb : b ∈ op.all) (h : fetchWith op s = .error e) :
    e = (.outOfBounds .operandFetch, 256) := by
  cases hd : decodeWith op (s.mem.bytesFrom 3 s.pc) with
  | ok p =>
    rw [fetchWith_ok.2 ⟨p.2, hd⟩] at h
    cases h
  | error d =>
    rw [fetchWith_error hd] at h
    cases h
    rw [bytesFrom_cons s.mem 2 hpc] at hd
    rw [eq_truncated_of_mem hb hd, fetchFault]

/-- With an opcode at `pc`, a step that fills an empty record fills it with another fault than InvalidOpcode. -/
theorem kind_ne_invalidOpcode_of_mem {s t : State} {b : Byte} {r : FaultRecord} (hl : s.live)
    (hpc : s.mem.byteAt? s.pc = some b) (hb : b ∈ OPCODE.all) (hs : s.fault = none) (h : step s = .next t)
    (hr : t.fault = some r) : r.kind ≠ .invalidOpcode := by
  rcases step_ran hl h with ⟨i, -, hran⟩ | ⟨kind, detail, hfetch, rfl⟩
  · rcases hran.fault_eq_or_raise with hkept | ⟨kind, detail, hkind, rfl⟩
    · rw [hkept, begun_fault, hs] at hr
      cases hr
    · cases hr
      exact hkind
  · cases eq_operandFetch_of_mem hpc hb hfetch
    cases hr
    nofun

/-- Settles O10: for a byte that is no opcode it is O53's clause about any opcode map; for an opcode,
neither the fetch nor the execute stage raises InvalidOpcode. -/
theorem invalidOpcodeRaises : Obligations.InvalidOpcodeRaises := by
  unfold Obligations.InvalidOpcodeRaises
  obtain ⟨-, hraises, -⟩ := anyOpcodeMapRuns
  exact fun s b hl hpc => ⟨hraises OPCODE s b hl hpc, fun hb hs t r h hr =>
    kind_ne_invalidOpcode_of_mem hl hpc hb hs h hr⟩

/-! ### Runs -/

/-- The final statuses are Halted and Faulted (R35). -/
theorem isFinal_iff {st : Status} : st.isFinal = true ↔ st = .halted ∨ st = .faulted := by
  cases st <;> decide

/-- A step of a live core that fetched HLT halts it (R98, R99). -/
theorem halted_of_fetch_hlt {s t : State} (hl : s.live) (hf : fetchWith OPCODE s = .ok .hlt) (h : step s = .next t) :
    t.status = .halted := by
  have hexec : step s = exec .hlt s.begun := stepWith_of_fetch_ok hl hf
  rw [hexec] at h
  cases h
  rfl

/-- Settles O16: a run and the steps of the machine agree on the final states they come to (`runFuelWith_iff_run`), and
of the statuses of `status_of_step` Halted is the one of a fetched HLT. -/
theorem runEndsExactlyAtAFinalStatus : Obligations.RunEndsExactlyAtAFinalStatus := by
  unfold Obligations.RunEndsExactlyAtAFinalStatus
  refine ⟨fun s t n h => isFinal_iff.1 (isFinal_of_runFuelWith h), runFuelWith_iff_run OPCODE resetParams,
    fun s t hl h => ⟨fun ht => ?_, fun hf => halted_of_fetch_hlt hl hf h⟩⟩
  rcases status_of_step hl h with hrunning | ⟨-, hf⟩ | hfaulted
  · cases hrunning.symm.trans ht
  · exact hf
  · cases hfaulted.symm.trans ht

/-- More fuel gives the same run, under any opcode map: by induction on the fuel it had (R98). -/
theorem runFuelWith_mono {op : Opcodes} {s t : State} {n m : Nat} (h : s.runFuelWith op n = some t) (hnm : n ≤ m) :
    s.runFuelWith op m = some t := by
  induction n generalizing s m with
  | zero =>
    cases hs : s.status.isFinal with
    | true => rwa [runFuelWith_of_final op hs] at h ⊢
    | false =>
      rw [runFuelWith_zero op hs] at h
      cases h
  | succ n ih =>
    cases hs : s.status.isFinal with
    | true => rwa [runFuelWith_of_final op hs] at h ⊢
    | false =>
      obtain _ | m := m
      · cases hnm
      · obtain ⟨u, hstep, hu⟩ := (runFuelWith_succ_eq_some hs).1 h
        exact (runFuelWith_succ_eq_some hs).2 ⟨u, hstep, ih hu (Nat.le_of_succ_le_succ hnm)⟩

/-- Settles O17: `runFuelWith_mono` under the opcode map of CORE. -/
theorem moreFuelGivesTheSameRun : Obligations.MoreFuelGivesTheSameRun := by
  unfold Obligations.MoreFuelGivesTheSameRun
  exact fun _ _ _ _ => runFuelWith_mono

end Sys2Proof.Machine
end

section
/-! PROOFS. What `load` writes to memory (R81), and that a state is determined by what the host reads of it (R89). -/

namespace Sys2Proof.Machine.Memory

/-! ### A program in memory -/

/-- The bytes written from cell `n` on stand there, in order (R81). -/
theorem byteAt?_writeFrom (m : Memory) {n i : Nat} {bytes : List Byte} {b : Byte} (hi : bytes[i]? = some b)
    (hlen : n + bytes.length ≤ memSize) : (m.writeFrom n bytes).byteAt? (n + i) = some b := by
  induction bytes generalizing m n i with
  | nil => cases hi
  | cons c bytes ih =>
    have hlen' : n + 1 + bytes.length ≤ memSize := by
      rw [List.length_cons] at hlen
      omega
    cases i with
    | zero =>
      cases hi
      have hn : n < memSize := by omega
      have haddr : (BitVec.ofNat 8 n).toNat = n := Nat.mod_eq_of_lt hn
      have hbelow := read_writeFrom_below (m.write (.ofNat 8 n) b) (n + 1) bytes (.ofNat 8 n) (by omega) hlen'
      rw [Nat.add_zero, byteAt?_of_lt _ hn, writeFrom, hbelow, read_write_same]
    | succ i =>
      have htail := ih (m.write (.ofNat 8 n) c) hi hlen'
      rwa [Nat.add_right_comm] at htail

/-- Loading bytes from cell `n` on leaves the cells after them alone (R81). -/
theorem read_writeFrom_above (m : Memory) {n : Nat} {bytes : List Byte} {a : Addr} (ha : n + bytes.length ≤ a.toNat) :
    (m.writeFrom n bytes).read a = m.read a := by
  induction bytes generalizing m n with
  | nil => rfl
  | cons b bytes ih =>
    rw [List.length_cons] at ha
    have hne : a ≠ .ofNat 8 n := by
      rintro rfl
      have hle : (BitVec.ofNat 8 n).toNat ≤ n := Nat.mod_le n (2 ^ 8)
      omega
    rw [writeFrom, ih _ (by omega), read_write_ne m b hne]

/-! ### Memories that read alike -/

/-- Where addresses strictly rise, a listed cell reads as it is listed. -/
theorem lookup_of_mem {m : Memory} {c : Host.Cell} (hs : m.Pairwise (fun c d => c.1 < d.1)) (hc : c ∈ m) :
    m.lookup c.1 = c.2 := by
  induction m with
  | nil => cases hc
  | cons d m ih =>
    obtain ⟨hd, hs⟩ := List.pairwise_cons.1 hs
    rcases List.mem_cons.1 hc with rfl | hc
    · exact if_pos rfl
    · exact (if_neg (hd c hc).ne).trans (ih hs hc)

/-- An address that does not read as an unlisted one is listed with what it reads. -/
theorem mem_of_lookup_ne {m : Memory} {a : Nat} (h : m.lookup a ≠ unlisted) : (a, m.lookup a) ∈ m := by
  induction m with
  | nil => exact absurd rfl h
  | cons d m ih =>
    simp only [lookup] at h ⊢
    split
    · next hd =>
      subst hd
      exact List.mem_cons_self
    · next hd =>
      rw [if_neg hd] at h
      exact List.mem_cons_of_mem _ (ih h)

/-- What a canonical memory lists, every memory that reads alike lists too. -/
theorem subset_of_read_eq {m n : Memory} (hm : m.wf) (h : ∀ a : Addr, m.read a = n.read a) : m ⊆ n := by
  intro c hc
  obtain ⟨hsorted, hcells⟩ := hm
  obtain ⟨hlt, hne⟩ := hcells c hc
  have haddr : (BitVec.ofNat 8 c.1).toNat = c.1 := Nat.mod_eq_of_lt hlt
  have hread : n.lookup c.1 = c.2 := by
    have hc' := h (.ofNat 8 c.1)
    rw [read, read, haddr, lookup_of_mem hsorted hc] at hc'
    exact hc'.symm
  have hmem : (c.1, n.lookup c.1) ∈ n := mem_of_lookup_ne (hread ▸ hne)
  rwa [hread] at hmem

/-- Canonical memories that read alike are equal: strictly rising lists of the same cells. -/
theorem eq_of_read_eq {m n : Memory} (hm : m.wf) (hn : n.wf) (h : ∀ a : Addr, m.read a = n.read a) : m = n := by
  have : Std.Irrefl (fun c d : Host.Cell => c.1 < d.1) := ⟨fun c => lt_irrefl c.1⟩
  have : Std.Antisymm (fun c d : Host.Cell => c.1 < d.1) := ⟨fun _ _ hcd hdc => absurd hcd hdc.not_gt⟩
  exact List.Subset.antisymm_of_pairwise hm.1 hn.1 (subset_of_read_eq hm h) (subset_of_read_eq hn fun a => (h a).symm)

end Sys2Proof.Machine.Memory

namespace Sys2Proof.Machine

/-- Settles O49: `load` writes the bytes from cell 0 on, and outside Ready it is refused. -/
theorem loadWritesTheProgram : Obligations.LoadWritesTheProgram := by
  unfold Obligations.LoadWritesTheProgram
  refine ⟨fun s bytes hs hlen => ?_, fun s bytes hs => load_of_not_ready hs bytes⟩
  refine ⟨_, load_eq_ok.2 ⟨hs, hlen, rfl⟩, fun i b hi => ?_, fun a ha => ?_, rfl, rfl, rfl, rfl, rfl, rfl⟩
  · have hbyte := s.mem.byteAt?_writeFrom (n := 0) hi (by rwa [Nat.zero_add])
    rwa [Nat.zero_add] at hbyte
  · exact s.mem.read_writeFrom_above (by rwa [Nat.zero_add])

/-! ### What the outcome and inspection show -/

theorem outcome_of_halted {s : State} (h : s.status = .halted) : s.outcome = some .halted := by
  simp only [State.outcome, h]

theorem outcome_of_faulted {s : State} (h : s.status = .faulted) : s.outcome = s.fault.map .faulted := by
  simp only [State.outcome, State.faultReport, h]

/-- Only status Faulted comes with a record (R36). -/
theorem State.Inv.fault_eq_none {s : State} (h : s.Inv) (hs : s.status ≠ .faulted) : s.fault = none :=
  Option.not_isSome_iff_eq_none.1 fun hsome => hs (h.recordIffFaulted.1 hsome)

/-- The outcome Halted is not one of Faulted (R88). -/
theorem outcome_ne_of_halted_of_faulted {s t : State} (hs : s.status = .halted) (ht : t.status = .faulted) :
    s.outcome ≠ t.outcome := by
  rw [outcome_of_halted hs, outcome_of_faulted ht]
  cases t.fault <;> simp

/-- In a final status the outcome tells the status and the record (R88). -/
theorem status_fault_eq_of_outcome_eq {s t : State} (hsInv : s.Inv) (htInv : t.Inv) (hs : s.status.isFinal = true)
    (ht : t.status.isFinal = true) (h : s.outcome = t.outcome) : s.status = t.status ∧ s.fault = t.fault := by
  rcases isFinal_iff.1 hs with hs | hs <;> rcases isFinal_iff.1 ht with ht | ht
  · have hsf : s.fault = none := hsInv.fault_eq_none (by simp [hs])
    have htf : t.fault = none := htInv.fault_eq_none (by simp [ht])
    exact ⟨hs.trans ht.symm, hsf.trans htf.symm⟩
  · exact absurd h (outcome_ne_of_halted_of_faulted hs ht)
  · exact absurd h.symm (outcome_ne_of_halted_of_faulted ht hs)
  · rw [outcome_of_faulted hs, outcome_of_faulted ht] at h
    exact ⟨hs.trans ht.symm, Option.map_injective (fun _ _ => RunOutcome.faulted.inj) h⟩

/-- Settles O52: the outcome tells status and record, the registers are read one by one, and canonical memories that
read alike are equal. -/
theorem inspectionShowsTheWholeState : Obligations.InspectionShowsTheWholeState := by
  unfold Obligations.InspectionShowsTheWholeState
  intro s t u v hs ht hu hv houtcome hreg hpc hflags hcell hout
  obtain ⟨hsFinal, rfl⟩ := inspect_eq_some.1 hu
  obtain ⟨htFinal, rfl⟩ := inspect_eq_some.1 hv
  obtain ⟨hstatus, hfault⟩ := status_fault_eq_of_outcome_eq hs ht hsFinal htFinal houtcome
  have hx : s.x = t.x := Vector.ext fun i hi => hreg ⟨i, hi⟩
  have hmem : s.mem = t.mem := Memory.eq_of_read_eq hs.memCanonical ht.memCanonical hcell
  cases s
  cases t
  rw [State.mk.injEq]
  exact ⟨hx, hpc, hflags, hmem, hstatus, hfault, hout⟩

end Sys2Proof.Machine
end

section
/-! PROOFS. What HLT, LDI and PRN do, with their whole frames (41_halt_load_print.md). -/

namespace Sys2Proof.Machine

theorem exec_hlt (s : State) : exec .hlt s = .next ((s.advance 1).setStatus .halted) := rfl

theorem exec_ldi (r : RegIx) (imm : Byte) (s : State) :
    exec (.ldi (regByte r) imm) s = .next ((s.setReg r imm).advance 3) := by
  simp only [exec, execLdi, withReg_regByte]

/-- An instruction that writes one register and advances `pc` has every other register in its frame. -/
theorem sameRegsBut_setReg_advance (r : RegIx) (v : Byte) (w : Nat) (s : State) :
    SameRegsBut [r] s ((s.setReg r v).advance w) := by
  intro q hq
  rw [State.reg_advance, State.reg_setReg_ne s v (List.ne_of_not_mem_cons hq)]

/-- Settles O25: `pc` past HLT and status Halted are the only two fields its equation writes. -/
theorem haltAdvancesThenStops : Obligations.HaltAdvancesThenStops := by
  unfold Obligations.HaltAdvancesThenStops
  exact exec_hlt

/-- Settles O26: LDI writes its register and `pc`, so the register reads the immediate, every other register is in the
frame of that write, and the other fields are untouched. -/
theorem loadImmediateSetsTheRegister : Obligations.LoadImmediateSetsTheRegister := by
  unfold Obligations.LoadImmediateSetsTheRegister
  intro r imm s
  have hreg : ((s.setReg r imm).advance 3).reg r = imm := by rw [State.reg_advance, State.reg_setReg_same]
  exact ⟨_, exec_ldi r imm s, hreg, sameRegsBut_setReg_advance r imm 3 s, rfl, rfl, fun _ => rfl, rfl, rfl, rfl⟩

/-- Settles O27: the output and `pc` are the only two fields PRN's equation writes. -/
theorem printEmitsTheRegister : Obligations.PrintEmitsTheRegister := by
  unfold Obligations.PrintEmitsTheRegister
  exact exec_prn

end Sys2Proof.Machine
end

section
/-! PROOFS. ADD, MUL and CMP with their whole frames, and that only CMP writes the flags of a sequence (42_alu.md). -/

namespace Sys2Proof.Machine

/-! ### One instruction -/

theorem exec_add (a b : RegIx) (s : State) : exec (.add (regByte a) (regByte b)) s =
    .next ((s.setReg a (wrap8 ((s.reg a).toNat + (s.reg b).toNat))).advance 3) := by
  simp only [exec, execAdd, withRegs_regByte]

theorem exec_mul (a b : RegIx) (s : State) : exec (.mul (regByte a) (regByte b)) s =
    .next ((s.setReg a (wrap8 ((s.reg a).toNat * (s.reg b).toNat))).advance 3) := by
  simp only [exec, execMul, withRegs_regByte]

/-- An exact result kept in a byte is that result modulo 256 (R103). -/
@[simp] theorem toNat_wrap8 (n : Nat) : (wrap8 n).toNat = n % 256 := BitVec.toNat_ofNat n 8

/-- What ADD and MUL have in common, with `n` the exact sum or product: `n` modulo 256 in the register, `pc` past the
instruction, and nothing else written (R103, R104). -/
theorem exists_next_of_exec_wrap8 {i : Instr} {a : RegIx} {n : Nat} {s : State}
    (h : exec i s = .next ((s.setReg a (wrap8 n)).advance 3)) :
    ∃ t, exec i s = .next t ∧ (t.reg a).toNat = n % 256 ∧ SameRegsBut [a] s t ∧
      t.pc = s.pc + 3 ∧ t.flags = s.flags ∧ SameMemory s t ∧ SameHostView s t := by
  have hreg : (((s.setReg a (wrap8 n)).advance 3).reg a).toNat = n % 256 := by
    rw [State.reg_advance, State.reg_setReg_same, toNat_wrap8]
  exact ⟨_, h, hreg, sameRegsBut_setReg_advance a (wrap8 n) 3 s, rfl, rfl, fun _ => rfl, rfl, rfl, rfl⟩

/-- Settles O28: ADD and MUL are cases of `exists_next_of_exec_wrap8`; CMP writes the flags, each of them the decision of
its comparison, and `pc`. -/
theorem aluWrapsAndComparesUnsigned : Obligations.AluWrapsAndComparesUnsigned := by
  unfold Obligations.AluWrapsAndComparesUnsigned
  refine ⟨fun a b s => exists_next_of_exec_wrap8 (exec_add a b s),
    fun a b s => exists_next_of_exec_wrap8 (exec_mul a b s), fun a b s => ?_⟩
  exact ⟨_, exec_cmp a b s, decide_eq_true_iff, decide_eq_true_iff, decide_eq_true_iff, fun _ _ => rfl, rfl,
    fun _ => rfl, rfl, rfl, rfl⟩

/-! ### Sequences of instructions -/

/-- A sequence executes in two parts, the second from the state the first leaves. -/
theorem Executes.append_split {before after : List Instr} {s u : State} (h : Executes (before ++ after) s u) :
    ∃ v, Executes before s v ∧ Executes after v u := by
  induction before generalizing s with
  | nil => exact ⟨s, .nil s, h⟩
  | cons i before ih =>
    obtain _ | ⟨hs, hexec, hrest⟩ := h
    obtain ⟨v, hbefore, hafter⟩ := ih hrest
    exact ⟨v, .cons hs hexec hbefore, hafter⟩

/-- A sequence without CMP leaves the flags alone (R104): every instruction of it does. -/
theorem Executes.flags_eq {is : List Instr} {s u : State} (h : Executes is s u)
    (hi : ∀ i ∈ is, ∀ a b, i ≠ .cmp a b) : u.flags = s.flags := by
  induction h with
  | nil => rfl
  | @cons i is s t u hs hexec hrest ih =>
    have hhead : t.flags = s.flags := (exec_ran hexec).flags_eq (hi i List.mem_cons_self)
    have htail : u.flags = t.flags := ih fun j hj => hi j (List.mem_cons_of_mem i hj)
    exact htail.trans hhead

/-- Settles O54: what executes after the last CMP, or after the reset, is a sequence without CMP (`Executes.flags_eq`). -/
theorem flagsKeepWhatTheLastCompareLeft : Obligations.FlagsKeepWhatTheLastCompareLeft := by
  unfold Obligations.FlagsKeepWhatTheLastCompareLeft
  refine ⟨fun a b s => ⟨_, exec_add a b s, rfl⟩, fun a b s => ⟨_, exec_mul a b s, rfl⟩,
    fun before after x y s u h hi => ?_, fun p is u h hi => ?_⟩
  · obtain ⟨v, hbefore, hlast⟩ := h.append_split
    obtain _ | ⟨-, hcmp, hafter⟩ := hlast
    exact ⟨v, _, hbefore, hcmp, hafter, hafter.flags_eq hi⟩
  · exact (h.flags_eq hi).trans (begun_flags _)

end Sys2Proof.Machine
end

section
/-! PROOFS. What JMP, JEQ and JNE do, and that a jump raises only at its target, in the next step (43_branch.md). -/

namespace Sys2Proof.Machine

/-- A branch on a register sets `pc`, to the register if it is taken and past itself if not, and nothing else (R110). -/
theorem branch_regByte (taken : Bool) (r : RegIx) (s : State) :
    branch taken (regByte r) s = .next (s.setPc (if taken then (s.reg r).toNat else s.pc + 2)) := by
  rw [branch, withReg_regByte]
  cases taken <;> rfl

theorem exec_jmp (r : RegIx) (s : State) : exec (.jmp (regByte r)) s = .next (s.setPc (s.reg r).toNat) :=
  branch_regByte true r s

theorem exec_jeq (r : RegIx) (s : State) : exec (.jeq (regByte r)) s =
    .next (s.setPc (if s.flags.e then (s.reg r).toNat else s.pc + 2)) :=
  branch_regByte s.flags.e r s

theorem exec_jne (r : RegIx) (s : State) : exec (.jne (regByte r)) s =
    .next (s.setPc (if s.flags.e then s.pc + 2 else (s.reg r).toNat)) := by
  have hbranch : exec (.jne (regByte r)) s = _ := branch_regByte (!s.flags.e) r s
  rw [hbranch]
  cases s.flags.e <;> rfl

/-- Settles O29: `pc` is the only field the equations of the three jumps write. -/
theorem jumpsSetOrAdvancePc : Obligations.JumpsSetOrAdvancePc := by
  unfold Obligations.JumpsSetOrAdvancePc
  exact fun r s => ⟨exec_jmp r s, exec_jeq r s, exec_jne r s⟩

/-- A jump that is taken sets `pc` to its register and writes nothing else, whichever of the three it is (R110). -/
theorem exec_taken_jump {i : Instr} {r : RegIx} {s : State}
    (h : i = .jmp (regByte r) ∨ (i = .jeq (regByte r) ∧ s.flags.e = true) ∨
      (i = .jne (regByte r) ∧ s.flags.e = false)) :
    exec i s = .next (s.setPc (s.reg r).toNat) := by
  rcases h with rfl | ⟨rfl, he⟩ | ⟨rfl, he⟩
  · exact exec_jmp r s
  · rw [exec_jeq, if_pos he]
  · rw [exec_jne, if_neg (Bool.eq_false_iff.1 he)]

/-- A step at an address whose byte is none of the map's opcodes raises InvalidOpcode there (R93, R109). -/
theorem stepWith_setPc_of_notMem {op : Opcodes} {s : State} {a : Addr} (hs : s.status = .running)
    (ha : s.readByte a ∉ op.all) :
    stepWith op (s.setPc a.toNat) = .next ((s.setPc a.toNat).faultedWith
      ⟨.invalidOpcode, a.toNat, some (s.readByte a), (s.readByte a).toNat⟩) := by
  have hpc : (s.setPc a.toNat).mem.byteAt? (s.setPc a.toNat).pc = some (s.readByte a) := s.mem.byteAt?_toNat a
  have hlive : (s.setPc a.toNat).live := .inr hs
  rw [stepWith_of_fetch_error hlive (fetchWith_of_notMem hpc ha), hpc, State.setPc_pc]

/-- Settles O55: the jump sets `pc` to a byte, so inside memory, and writes nothing else; the fault is the one of the
step from there. -/
theorem jumpFaultsOnlyAtItsTarget : Obligations.JumpFaultsOnlyAtItsTarget := by
  unfold Obligations.JumpFaultsOnlyAtItsTarget
  intro op r i s hs hi
  have hbound : (s.reg r).toNat ≤ 255 := Nat.le_of_lt_succ (s.reg r).isLt
  refine ⟨_, exec_taken_jump hi, rfl, hbound, hs, fun _ _ => rfl, fun _ => rfl, fun hb => ?_⟩
  exact ⟨_, stepWith_setPc_of_notMem hs hb, rfl, rfl⟩

end Sys2Proof.Machine
end

section
/-! PROOFS. What PUSH and POP do where they complete, with their whole frames (44_stack.md). -/

namespace Sys2Proof.Machine

/-! ### SP and the other registers -/

/-- The decrement of SP does not wrap where SP is not 0 (R115, R116). -/
theorem toNat_sub_one_of_ne {b : Byte} (h : b ≠ 0) : (b - 1).toNat = b.toNat - 1 := by
  bv_omega

/-- The increment of SP does not wrap where SP is not 255 (R115, R116). -/
theorem toNat_add_one_of_ne {b : Byte} (h : b ≠ 255) : (b + 1).toNat = b.toNat + 1 := by
  bv_omega

/-- A write of one register leaves every other (R12). -/
theorem sameRegsBut_setReg (r : RegIx) (v : Byte) (s : State) : SameRegsBut [r] s (s.setReg r v) := fun _ hq =>
  s.reg_setReg_ne v (List.ne_of_not_mem_cons hq)

/-! ### PUSH and POP -/

theorem exec_push_of_sp_ne (r : RegIx) {s : State} (h : s.sp ≠ 0) :
    exec (.push (regByte r)) s = .next ((s.decSP.storeTop (s.decSP.reg r)).advance 2) := by
  rw [exec_push, if_neg h]

theorem exec_pop_of_sp_ne {r : RegIx} {s : State} (h : (s.loadInto r).sp ≠ 255) :
    exec (.pop (regByte r)) s = .next ((s.loadInto r).incSP.advance 2) := by
  rw [exec_pop, if_neg (mt eq_of_past h)]

/-- Settles O30: PUSH writes SP, one cell and `pc`. The cell reads the register as it is after the decrement of SP, and
the frames are those of that decrement and of the write of that cell. -/
theorem pushStoresBelowTheStackPointer : Obligations.PushStoresBelowTheStackPointer := by
  unfold Obligations.PushStoresBelowTheStackPointer
  intro r s hsp
  have hdec : s.decSP.sp.toNat = s.sp.toNat - 1 := by rw [State.sp_decSP, toNat_sub_one_of_ne hsp]
  have hstored : (s.mem.write s.pushAddr (s.decSP.reg r)).read s.pushAddr =
      if r = spIx then s.decSP.sp else s.reg r := by
    rw [Memory.read_write_same, State.reg_decSP, State.sp_decSP]
  exact ⟨_, exec_push_of_sp_ne r hsp, hdec, rfl, hstored, sameMemoryBut_of_mem_write rfl, sameRegsBut_setReg spIx _ s,
    rfl, rfl, rfl, rfl, rfl⟩

/-- Settles O31: POP into a register other than R7 leaves SP for its increment, which leaves that register; the frames are
those of the two writes. -/
theorem popLoadsTheTopOfStack : Obligations.PopLoadsTheTopOfStack := by
  unfold Obligations.PopLoadsTheTopOfStack
  intro r s hr hsp
  have hload : (s.loadInto r).sp = s.sp := by rw [sp_loadInto, if_neg hr]
  have hreg : (s.loadInto r).incSP.reg r = s.readByte s.sp := by
    rw [State.reg_incSP, if_neg hr, reg_loadInto, if_pos rfl]
  have hinc : (s.loadInto r).incSP.sp.toNat = s.sp.toNat + 1 := by
    rw [State.sp_incSP, hload, toNat_add_one_of_ne hsp]
  have hframe : SameRegsBut [r, spIx] s (s.loadInto r).incSP := fun q hq => by
    obtain ⟨hqr, hqsp⟩ := not_or.1 (mt List.mem_cons.2 hq)
    calc (s.loadInto r).incSP.reg q = (s.loadInto r).reg q := sameRegsBut_setReg spIx _ _ q hqsp
      _ = s.reg q := sameRegsBut_setReg r _ s q (mt List.mem_singleton.1 hqr)
  exact ⟨_, exec_pop_of_sp_ne (hload ▸ hsp), hreg, hinc, hframe, fun _ => rfl, rfl, rfl, rfl, rfl, rfl⟩

end Sys2Proof.Machine
end

section
/-! PROOFS. Where a step raises nothing, and when a whole run does not (R116, R121). -/

namespace Sys2Proof.Machine

/-! ### What a fetch finds -/

/-- What a fetch reads stands in the cells from `n` on: the converse of `bytesFrom_of_holds`. -/
theorem byteAt?_of_getElem?_bytesFrom {m : Memory} {count n k : Nat} {b : Byte}
    (h : (m.bytesFrom count n)[k]? = some b) : m.byteAt? (n + k) = some b := by
  induction count generalizing n k with
  | zero => cases h
  | succ count ih =>
    cases hn : m.byteAt? n with
    | none =>
      rw [bytesFrom_past m _ ((m.byteAt?_eq_none n).1 hn)] at h
      cases h
    | some c =>
      rw [bytesFrom_cons m count hn] at h
      cases k with
      | zero =>
        cases h
        exact hn
      | succ k =>
        have htail : m.byteAt? (n + 1 + k) = some b := ih h
        rwa [Nat.add_assoc, Nat.add_comm 1] at htail

/-- An instruction is fetched exactly where its bytes stand at `pc` (R62, R92, R94). -/
theorem fetchWith_eq_ok_iff_holdsAtPc {s : State} {i : Instr} : fetchWith OPCODE s = .ok i ↔ s.holdsAtPc i := by
  refine ⟨fun h k b hk => ?_, fetchWith_of_holds opcode_distinct⟩
  obtain ⟨rest, hdecode⟩ := fetchWith_ok.1 h
  apply byteAt?_of_getElem?_bytesFrom (count := 3)
  have hk' : k < (encodeWith OPCODE i).length := (List.getElem?_eq_some_iff.1 hk).1
  rw [eq_encodeWith_of_decodeWith hdecode, List.getElem?_append_left hk']
  exact hk

/-! ### What an instruction needs to raise nothing -/

theorem regByte_injective : Function.Injective regByte := fun r q h =>
  Option.some.inj (by rw [← regIndex?_regByte r, h, regIndex?_regByte])

/-- The SP that POP increments is the one its load leaves (R120). -/
theorem poppedSP_regByte (r : RegIx) (s : State) : s.poppedSP (regByte r) = (s.loadInto r).sp := by
  simp only [State.poppedSP, sp_loadInto, regByte_injective.eq_iff]

/-- An operand is invalid exactly where one is found (R95). -/
theorem wellFormed_iff_badIndex? {i : Instr} : i.wellFormed = true ↔ i.badIndex? = none := by
  simp [Instr.wellFormed, Instr.badIndex?]

theorem wellFormed_of_one_register {i : Instr} {r : RegIx} (hi : i.regOperands = [regByte r]) : i.wellFormed = true := by
  simp only [Instr.wellFormed, hi, List.all_cons, List.all_nil, validIndex_regByte, Bool.and_true]

theorem wellFormed_of_two_registers {i : Instr} {r q : RegIx} (hi : i.regOperands = [regByte r, regByte q]) :
    i.wellFormed = true := by
  simp only [Instr.wellFormed, hi, List.all_cons, List.all_nil, validIndex_regByte, Bool.and_true]

/-- An instruction that has not raised had valid operands (R95) and was within its bounds (R116, R121). -/
theorem Ran.canRun {i : Instr} {s t : State} (h : Ran i s t) (ht : t.status ≠ .faulted) :
    i.wellFormed = true ∧ withinBounds i s := by
  cases h with
  | pushOverflow | popUnderflow | callOverflow | callAddress | retUnderflow | badIndex => exact absurd rfl ht
  | hlt => exact ⟨rfl, trivial⟩
  | ret _ hsp => exact ⟨rfl, hsp⟩
  | push r _ hsp => exact ⟨wellFormed_of_one_register rfl, hsp⟩
  | pop r _ hsp =>
    have hpopped : s.poppedSP (regByte r) ≠ 255 := poppedSP_regByte r s ▸ hsp
    exact ⟨wellFormed_of_one_register rfl, hpopped⟩
  | call r _ hsp hpc => exact ⟨wellFormed_of_one_register rfl, hsp, hpc⟩
  | add | mul | cmp => exact ⟨wellFormed_of_two_registers rfl, trivial⟩
  | ldi | prn | jmp | jeq | jne => exact ⟨wellFormed_of_one_register rfl, trivial⟩

/-- An instruction with valid operands, within its bounds, does not raise: each way to raise breaks one of them. -/
theorem Ran.status_ne_faulted {i : Instr} {s t : State} (h : Ran i s t) (hs : s.status ≠ .faulted)
    (hwf : i.wellFormed = true) (hb : withinBounds i s) : t.status ≠ .faulted := by
  cases h with
  | badIndex i s b hbad =>
    rw [wellFormed_iff_badIndex?, hbad] at hwf
    cases hwf
  | pushOverflow r _ hsp => exact absurd hsp hb
  | popUnderflow r _ hsp =>
    have hpopped : s.poppedSP (regByte r) = 255 := (poppedSP_regByte r s).trans hsp
    exact absurd hpopped hb
  | callOverflow r _ hsp =>
    obtain ⟨hsp', -⟩ := hb
    exact absurd hsp hsp'
  | callAddress r _ _ hpc =>
    obtain ⟨-, hpc'⟩ := hb
    exact absurd hpc' hpc.not_ge
  | retUnderflow _ hsp => exact absurd hsp hb
  | hlt => nofun
  | jeq | jne => split <;> exact hs
  | _ => exact hs

/-! ### Steps and runs -/

/-- The start of a step sets the status of a live state to Running, and nothing else (R85). -/
theorem begun_of_live {s : State} (h : s.live) : s.begun = s.setStatus .running := by
  obtain ⟨x, pc, flags, mem, status, fault, out⟩ := s
  obtain rfl | rfl := h <;> rfl

/-- The bounds do not look at the status. -/
theorem withinBounds_begun {i : Instr} {s : State} (h : s.live) : withinBounds i s.begun ↔ withinBounds i s := by
  rw [begun_of_live h]
  cases i <;> exact Iff.rfl

theorem State.safe_iff {s : State} : s.safe = true ↔ s.status ≠ .faulted := bne_iff_ne

/-- A live state that fetches an instruction steps to an unfaulted one exactly where that instruction's operands are valid
and it is within its bounds; one whose fetch raises holds no instruction at `pc`. -/
theorem safe_step_iff_canStep {s t : State} (hl : s.live) (h : step s = .next t) : t.safe = true ↔ s.canStep := by
  rw [State.safe_iff]
  rcases step_ran hl h with ⟨i, hfetch, hran⟩ | ⟨kind, detail, hfetch, rfl⟩
  · constructor
    · intro ht
      obtain ⟨hwf, hb⟩ := hran.canRun ht
      exact ⟨i, fetchWith_eq_ok_iff_holdsAtPc.1 hfetch, hwf, (withinBounds_begun hl).1 hb⟩
    · rintro ⟨j, hj, hwf, hb⟩
      obtain rfl : i = j := Except.ok.inj (hfetch.symm.trans (fetchWith_eq_ok_iff_holdsAtPc.2 hj))
      have hs : s.begun.status ≠ .faulted := by simp [begun_status hl]
      exact hran.status_ne_faulted hs hwf ((withinBounds_begun hl).2 hb)
  · constructor
    · exact fun ht => absurd rfl ht
    · rintro ⟨j, hj, -⟩
      cases hfetch.symm.trans (fetchWith_eq_ok_iff_holdsAtPc.2 hj)

/-- A step from an unfaulted state leaves it unfaulted exactly where it can step, if it is live; after Halted nothing
changes (R86, log 2). -/
theorem safe_step_iff {s t : State} (hs : s.safe = true) (h : step s = .next t) :
    t.safe = true ↔ (s.live → s.canStep) := by
  by_cases hl : s.live
  · rw [safe_step_iff_canStep hl h, forall_prop_of_true hl]
  · have hfinal : s.status.isFinal = true := by
      cases hst : s.status with
      | ready => exact absurd (.inl hst) hl
      | running => exact absurd (.inr hst) hl
      | halted | faulted => rfl
    obtain rfl : s = t := Host.Outcome.next.inj ((stepWith_of_final OPCODE hfinal).symm.trans h)
    exact iff_of_true hs fun hl' => absurd hl' hl

/-- A safe run of `n + 1` steps is an unfaulted state and a safe run of `n` from the state it steps to. -/
theorem safeFor_succ {s u : State} (n : Nat) (h : step s = .next u) :
    s.safeFor (n + 1) ↔ s.safe = true ∧ u.safeFor n := by
  simp only [State.safeFor, h, Host.Outcome.next.injEq, forall_eq']

/-- What holds of every state that a run of `n + 1` steps steps from holds of the first, and of every one that the run of
`n` from the next state steps from. -/
theorem forall_run_succ {P : State → Prop} {s u : State} (n : Nat) (h : step s = .next u) :
    (∀ (k : Nat) (t : State), k < n + 1 → Sys2Proof.core.run k s = .next t → P t) ↔
      P s ∧ ∀ (k : Nat) (t : State), k < n → Sys2Proof.core.run k u = .next t → P t := by
  constructor
  · intro hall
    exact ⟨hall 0 s n.succ_pos rfl, fun k t hk hrun =>
      hall (k + 1) t (Nat.succ_lt_succ hk) ((core_run_succ k h).trans hrun)⟩
  · rintro ⟨hs, hall⟩ k t hk hrun
    cases k with
    | zero =>
      cases hrun
      exact hs
    | succ k => exact hall k t (Nat.lt_of_succ_lt_succ hk) ((core_run_succ k h).symm.trans hrun)

/-- A run is safe exactly where it starts unfaulted and every live state it steps from can step: by induction on its
steps. -/
theorem safeFor_iff (n : Nat) (s : State) : s.safeFor n ↔ s.safe = true ∧
    ∀ (k : Nat) (t : State), k < n → Sys2Proof.core.run k s = .next t → t.live → t.canStep := by
  induction n generalizing s with
  | zero => exact ⟨fun h => ⟨h, nofun⟩, And.left⟩
  | succ n ih =>
    obtain ⟨u, hu⟩ := exists_step_eq_next s
    rw [safeFor_succ n hu, forall_run_succ (P := fun t => t.live → t.canStep) n hu, ih u]
    exact and_congr_right fun hs => and_congr_left' (safe_step_iff hs hu)

/-- A live state has raised no fault. -/
theorem State.live.safe_eq_true {s : State} (h : s.live) : s.safe = true := by
  rcases h with h | h <;> rw [State.safe, h] <;> rfl

/-- Settles O18: one step of a live state is `safe_step_iff_canStep`, which a run repeats (`safeFor_iff`). -/
theorem safeRunStaysWithinTheBounds : Obligations.SafeRunStaysWithinTheBounds := by
  unfold Obligations.SafeRunStaysWithinTheBounds
  refine ⟨fun s hl => ?_, safeFor_iff⟩
  obtain ⟨u, hu⟩ := exists_step_eq_next s
  rw [safeFor_succ 0 hu, and_iff_right hl.safe_eq_true]
  exact safe_step_iff_canStep hl hu

end Sys2Proof.Machine
end

section
/-! PROOFS. What RET does where it completes, with its whole frame, and that it undoes a CALL (45_call_return.md). -/

namespace Sys2Proof.Machine

theorem exec_ret_of_sp_ne {s : State} (h : s.sp ≠ 255) : exec .ret s = .next (s.incSP.setPc s.loadTop.toNat) := by
  rw [exec_ret, if_neg (mt eq_of_past h)]

theorem exec_call_of_sp_ne (r : RegIx) {s : State} (hsp : s.sp ≠ 0) (hpc : s.returnAddress ≤ 255) :
    exec (.call (regByte r)) s = .next (s.pushReturn.setPc (s.pushReturn.target r)) := by
  rw [exec_call, if_neg hsp, if_neg hpc.not_gt]

/-- Settles O34: RET writes SP, whose increment does not wrap and leaves every other register, and `pc`, the byte at the
SP before it. -/
theorem returnPopsThePc : Obligations.ReturnPopsThePc := by
  unfold Obligations.ReturnPopsThePc
  intro s hsp
  have hinc : s.incSP.sp.toNat = s.sp.toNat + 1 := by rw [State.sp_incSP, toNat_add_one_of_ne hsp]
  exact ⟨_, exec_ret_of_sp_ne hsp, rfl, hinc, sameRegsBut_setReg spIx _ s, fun _ => rfl, rfl, rfl, rfl, rfl⟩

/-- The byte at SP after the push of a return address is that address (R123). -/
theorem loadTop_pushReturn (s : State) : s.pushReturn.loadTop = BitVec.ofNat 8 s.returnAddress :=
  Memory.read_write_same s.mem s.pushAddr _

/-- The increment of SP undoes the decrement in the push of a return address, and neither writes another register. -/
theorem reg_incSP_pushReturn (s : State) (q : RegIx) : s.pushReturn.incSP.reg q = s.reg q := by
  rw [State.reg_incSP]
  split
  · next hq =>
    rw [sp_pushReturn, BitVec.sub_add_cancel, hq, State.sp_eq]
  · next hq =>
    rw [reg_pushReturn, if_neg hq]

/-- Settles O46: the SP that CALL leaves is not 255, so RET completes. It loads the return address, which fits a byte, and
its increment of SP undoes CALL's decrement; the jump in between writes `pc` alone. -/
theorem callThenReturnRoundTrips : Obligations.CallThenReturnRoundTrips := by
  unfold Obligations.CallThenReturnRoundTrips
  intro r s hsp hpc
  have hsp' : (s.pushReturn.setPc (s.pushReturn.target r)).sp ≠ 255 := by
    rw [State.sp_setPc, sp_pushReturn]
    bv_omega
  have hloaded : s.pushReturn.loadTop.toNat = s.pc + 2 := by
    rw [loadTop_pushReturn]
    exact Nat.mod_eq_of_lt (Nat.lt_succ_of_le hpc)
  exact ⟨_, _, exec_call_of_sp_ne r hsp hpc, exec_ret_of_sp_ne hsp', hloaded, fun q _ => reg_incSP_pushReturn s q, rfl⟩

end Sys2Proof.Machine
end

section
/-! PROOFS. Every fault a step raises is a row of R125's table, and it changes the status and the record alone (R131). -/

namespace Sys2Proof

/-! ### The opcode and the operands of an instruction -/

theorem opcodeWith_mem_all (op : Opcodes) (i : Instr) : i.opcodeWith op ∈ op.all := by
  obtain ⟨f, hrow, -⟩ := opcode_row op i
  exact rows_opcodes op ▸ List.mem_map_of_mem hrow

/-- HLT and RET name no register, and an instruction that names one has neither opcode (R63, R66). -/
theorem opcode_ne_of_regOperands {i : Instr} (h : i.regOperands ≠ []) :
    i.opcodeWith OPCODE ≠ OPCODE.hlt ∧ i.opcodeWith OPCODE ≠ OPCODE.ret := by
  cases i with
  | hlt | ret => exact absurd rfl h
  | _ => simp [Instr.opcodeWith, OPCODE]

/-- The register operands come first among the operand bytes; a second one is that of ADD, MUL or CMP (R63). -/
theorem regOperands_cases (op : Opcodes) (i : Instr) :
    i.regOperands = [] ∨ (∃ ra rest, i.regOperands = [ra] ∧ i.operandBytes = ra :: rest) ∨
      ∃ ra rb, i.regOperands = [ra, rb] ∧ i.operandBytes = [ra, rb] ∧
        (i.opcodeWith op = op.add ∨ i.opcodeWith op = op.mul ∨ i.opcodeWith op = op.cmp) := by
  cases i with
  | hlt | ret => exact .inl rfl
  | add => exact .inr (.inr ⟨_, _, rfl, rfl, .inl rfl⟩)
  | mul => exact .inr (.inr ⟨_, _, rfl, rfl, .inr (.inl rfl)⟩)
  | cmp => exact .inr (.inr ⟨_, _, rfl, rfl, .inr (.inr rfl)⟩)
  | _ => exact .inr (.inl ⟨_, _, rfl, rfl⟩)

/-- Bytes that begin with an opcode are truncated exactly where fewer are left than its width (R64, R94). -/
theorem decodeWith_eq_truncated {op : Opcodes} {b : Byte} {rest : List Byte} :
    decodeWith op (b :: rest) = .error (.truncated b) ↔ ∃ w, widthOf? op b = some w ∧ rest.length + 1 < w := by
  cases hf : formatIn op.rows b with
  | none => simp [decodeWith_none hf, widthOf?, hf]
  | some f => simp [decodeWith_some hf, read_error, widthOf?, hf]

/-- No opcode is wider than three bytes (R64). -/
theorem width_le_of_widthOf? {op : Opcodes} {b : Byte} {w : Nat} (h : widthOf? op b = some w) : w ≤ 3 := by
  obtain ⟨f, -, rfl⟩ := Option.map_eq_some_iff.1 h
  cases f <;> simp [Format.width]

end Sys2Proof

namespace Sys2Proof.Machine

/-- A byte that names no register is above 7 (R70). -/
theorem validIndex_eq_false {b : Byte} : validIndex b = false ↔ 7 < b.toNat := by
  simp [validIndex, Nat.succ_le_iff]

/-- A byte that is a valid index names its register (R70). -/
theorem exists_eq_regByte {b : Byte} (h : validIndex b = true) : ∃ r, b = regByte r :=
  ⟨_, regIndex?_eq_some.1 (regIndex?_of_lt (of_decide_eq_true h))⟩

/-- All that the invalid index of an instruction can be: its first operand byte, or the second one of ADD, MUL or CMP
whose first names a register (R95, R130). -/
theorem badIndex?_cases {i : Instr} {b : Byte} (h : i.badIndex? = some b) :
    i.operandBytes[0]? = some b ∨ ∃ r, i.operandBytes = [regByte r, b] ∧
      (i.opcodeWith OPCODE = OPCODE.add ∨ i.opcodeWith OPCODE = OPCODE.mul ∨ i.opcodeWith OPCODE = OPCODE.cmp) := by
  unfold Instr.badIndex? at h
  rcases regOperands_cases OPCODE i with hreg | ⟨ra, rest, hreg, hbytes⟩ | ⟨ra, rb, hreg, hbytes, hop⟩
  · rw [hreg] at h
    cases h
  · rw [hreg] at h
    obtain rfl : b = ra := List.mem_singleton.1 (List.mem_of_find?_eq_some h)
    exact .inl (by rw [hbytes, List.getElem?_cons_zero])
  · rw [hreg, List.find?_cons] at h
    cases hv : validIndex ra with
    | false =>
      simp only [hv, Bool.not_false, Option.some.injEq] at h
      exact .inl (by rw [hbytes, List.getElem?_cons_zero, h])
    | true =>
      simp only [hv, Bool.not_true] at h
      obtain rfl : b = rb := List.mem_singleton.1 (List.mem_of_find?_eq_some h)
      obtain ⟨r, rfl⟩ := exists_eq_regByte hv
      exact .inr ⟨r, hbytes, hop⟩

/-! ### Rows of the fault table -/

/-- The record that raising a fault fills in (R36). -/
def State.record (s : State) (kind : FaultKind) (detail : Nat) : FaultRecord :=
  { kind, pc := s.pc, opcode := s.mem.byteAt? s.pc, detail }

/-- Raising a fault as a step begins stops the state before that step with the record (R131). -/
theorem raise_begun_eq_faultedWith (s : State) (kind : FaultKind) (detail : Nat) :
    s.begun.raise kind detail = s.faultedWith (s.record kind detail) := raise_begun s kind detail

/-- Whether a record is a row depends on neither the status nor the record in the state. -/
theorem isRow_faultedWith {r q : FaultRecord} {s : State} : r.isRow (s.faultedWith q) ↔ r.isRow s := Iff.rfl

theorem isRow_record_begun {s : State} (h : s.live) {kind : FaultKind} {detail : Nat} :
    (s.begun.record kind detail).isRow s.begun ↔ (s.record kind detail).isRow s := by
  rw [begun_of_live h]
  exact Iff.rfl

/-- In every row but that of site Fetch there is an opcode (R36, R125). -/
theorem FaultRecord.isRow.opcode_eq_none_iff {r : FaultRecord} {s : State} (h : r.isRow s) :
    r.opcode = none ↔ r.kind = .outOfBounds .fetch := by
  obtain ⟨kind, pc, opcode, detail⟩ := r
  obtain ⟨-, -, hrow⟩ := h
  have present {b : Byte} (hop : opcode = some b) (hkind : kind ≠ .outOfBounds .fetch) :
      opcode = none ↔ kind = .outOfBounds .fetch := iff_of_false (by simp [hop]) hkind
  match kind with
  | .outOfBounds .fetch =>
    obtain ⟨hop, -⟩ := hrow
    exact iff_of_true hop rfl
  | .invalidOpcode =>
    obtain ⟨b, hop, -⟩ := hrow
    exact present hop nofun
  | .outOfBounds .operandFetch | .outOfBounds .register =>
    obtain ⟨_, _, hop, -⟩ := hrow
    exact present hop nofun
  | .outOfBounds .returnAddress =>
    obtain ⟨hop, -⟩ := hrow
    exact present hop nofun
  | .stackOverflow =>
    obtain ⟨hop | hop, -⟩ := hrow <;> exact present hop nofun
  | .stackUnderflow =>
    obtain ⟨⟨hop, -⟩ | ⟨hop, -⟩, -⟩ := hrow <;> exact present hop nofun

/-! ### Faults of the fetch -/

/-- Only the cells below 256 hold a byte (R46). -/
theorem lt_of_byteAt?_eq_some {m : Memory} {n : Nat} {b : Byte} (h : m.byteAt? n = some b) : n < memSize := by
  by_contra hn
  cases h.symm.trans (m.byteAt?_of_ge (not_lt.1 hn))

/-- A fetch reads as many bytes as it asks for, or all that are left (R91, R94). -/
theorem length_bytesFrom (m : Memory) (count n : Nat) : (m.bytesFrom count n).length = min count (memSize - n) := by
  induction count generalizing n with
  | zero => simp [Memory.bytesFrom]
  | succ count ih =>
    by_cases hn : n < memSize
    · rw [bytesFrom_cons m count (m.byteAt?_of_lt hn), List.length_cons, ih]
      omega
    · rw [bytesFrom_past m _ (not_lt.1 hn), List.length_nil]
      omega

/-- A valid opcode at `pc` whose fetch raises has its last byte past memory (R94). -/
theorem past_of_fetch_error_of_mem {s : State} {b : Byte} {e : FaultKind × Nat} (hpc : s.mem.byteAt? s.pc = some b)
    (hb : b ∈ OPCODE.all) (h : fetchWith OPCODE s = .error e) :
    ∃ w, widthOf? OPCODE b = some w ∧ 255 < s.pc + w - 1 := by
  have hlt : s.pc < memSize := lt_of_byteAt?_eq_some hpc
  cases hd : decodeWith OPCODE (s.mem.bytesFrom 3 s.pc) with
  | ok p =>
    rw [fetchWith_ok.2 ⟨p.2, hd⟩] at h
    cases h
  | error d =>
    rw [bytesFrom_cons s.mem 2 hpc] at hd
    obtain rfl : d = .truncated b := eq_truncated_of_mem hb hd
    obtain ⟨w, hw, hlen⟩ := decodeWith_eq_truncated.1 hd
    have hle : w ≤ 3 := width_le_of_widthOf? hw
    rw [length_bytesFrom] at hlen
    simp only [memSize] at hlt hlen
    exact ⟨w, hw, by omega⟩

/-- What a fetch raises is a row: of site Fetch past memory, InvalidOpcode for a byte that is no opcode, and else of site
OperandFetch (R91, R93, R94). -/
theorem isRow_of_fetch_error {s : State} {kind : FaultKind} {detail : Nat}
    (h : fetchWith OPCODE s = .error (kind, detail)) : (s.record kind detail).isRow s := by
  refine ⟨rfl, rfl, ?_⟩
  cases hpc : s.mem.byteAt? s.pc with
  | none =>
    have hpast : 255 < s.pc := (s.mem.byteAt?_eq_none s.pc).1 hpc
    have hfetch : fetchWith OPCODE s = .error (.outOfBounds .fetch, s.pc) :=
      fetchWith_error (e := .noOpcode) (by rw [bytesFrom_past s.mem 3 hpast, decodeWith])
    cases hfetch.symm.trans h
    exact ⟨hpc, hpast, rfl⟩
  | some b =>
    by_cases hb : b ∈ OPCODE.all
    · obtain ⟨w, hw, hpast⟩ := past_of_fetch_error_of_mem hpc hb h
      cases eq_operandFetch_of_mem hpc hb h
      exact ⟨b, w, hpc, hw, hpast, rfl⟩
    · cases (fetchWith_of_notMem hpc hb).symm.trans h
      exact ⟨b, hpc, hb, rfl⟩

/-! ### Faults of an instruction -/

theorem State.holdsAtPc.opcode {s : State} {i : Instr} (h : s.holdsAtPc i) :
    s.mem.byteAt? s.pc = some (i.opcodeWith OPCODE) := h 0 _ rfl

theorem State.holdsAtPc.operand {s : State} {i : Instr} {k : Nat} {b : Byte} (h : s.holdsAtPc i)
    (hk : i.operandBytes[k]? = some b) : s.mem.byteAt? (s.pc + (k + 1)) = some b := h (k + 1) b hk

/-- An invalid index is a row of site Register (R95, R127). -/
theorem isRow_of_badIndex? {s : State} {i : Instr} {b : Byte} (hi : s.holdsAtPc i) (hb : i.badIndex? = some b) :
    (s.record (.outOfBounds .register) b.toNat).isRow s := by
  have hreg : i.regOperands ≠ [] := List.ne_nil_of_mem (List.mem_of_find?_eq_some hb)
  have hinvalid : 7 < b.toNat := validIndex_eq_false.1 (by simpa using List.find?_some hb)
  obtain ⟨hhlt, hret⟩ := opcode_ne_of_regOperands hreg
  refine ⟨rfl, rfl, _, b, hi.opcode, opcodeWith_mem_all OPCODE i, hhlt, hret, ⟨hinvalid, ?_⟩, rfl⟩
  rcases badIndex?_cases hb with hfirst | ⟨r, hbytes, hop⟩
  · exact .inl (hi.operand hfirst)
  · exact .inr ⟨⟨r, hi.operand (k := 0) (by rw [hbytes, List.getElem?_cons_zero])⟩, hop,
      hi.operand (k := 1) (by rw [hbytes]; rfl)⟩

/-- An instruction at `pc` that leaves a running core Faulted has raised a row of R125's table, and done nothing else. -/
theorem Ran.exists_isRow {i : Instr} {s t : State} (h : Ran i s t) (hs : s.status = .running)
    (hi : s.holdsAtPc i) (ht : t.status = .faulted) :
    ∃ kind detail, t = s.raise kind detail ∧ (s.record kind detail).isRow s := by
  have kept (hst : t.status = s.status) :
      ∃ kind detail, t = s.raise kind detail ∧ (s.record kind detail).isRow s := by
    rw [hst, hs] at ht
    cases ht
  cases h with
  | badIndex _ _ b hb => exact ⟨_, _, rfl, isRow_of_badIndex? hi hb⟩
  | pushOverflow r _ hsp => exact ⟨_, _, rfl, rfl, rfl, .inl hi.opcode, ⟨r, hi.operand (k := 0) rfl⟩, hsp, rfl⟩
  | callOverflow r _ hsp => exact ⟨_, _, rfl, rfl, rfl, .inr hi.opcode, ⟨r, hi.operand (k := 0) rfl⟩, hsp, rfl⟩
  | callAddress r _ hsp hpc =>
    have hoperand : s.mem.byteAt? (s.pc + 1) = some (regByte r) := hi.operand (k := 0) rfl
    have hlt : s.pc + 1 < 256 := lt_of_byteAt?_eq_some hoperand
    have hpast : 255 < s.pc + 2 := hpc
    have hpc' : s.pc = 254 := by omega
    have hdetail : s.returnAddress = 256 := by rw [State.returnAddress, hpc']
    exact ⟨_, _, rfl, rfl, rfl, hi.opcode, ⟨r, hoperand⟩, hsp, hpc', hdetail⟩
  | popUnderflow r _ hsp =>
    have hpopped : s.poppedSP (regByte r) = 255 := (poppedSP_regByte r s).trans hsp
    exact ⟨_, _, rfl, rfl, rfl, .inl ⟨hi.opcode, r, hi.operand (k := 0) rfl, hpopped⟩, rfl⟩
  | retUnderflow _ hsp => exact ⟨_, _, rfl, rfl, rfl, .inr ⟨hi.opcode, hsp⟩, rfl⟩
  | hlt => cases ht
  | jeq | jne => exact kept (by split <;> rfl)
  | _ => exact kept rfl

/-- A step of a live core that raises changes the status and the record alone, and the record is a row (R131). -/
theorem exists_isRow_of_step_faulted {s t : State} (hl : s.live) (h : step s = .next t) (ht : t.status = .faulted) :
    ∃ kind detail, t = s.faultedWith (s.record kind detail) ∧ (s.record kind detail).isRow s := by
  rcases step_ran hl h with ⟨i, hfetch, hran⟩ | ⟨kind, detail, hfetch, rfl⟩
  · have hi : s.begun.holdsAtPc i := fetchWith_eq_ok_iff_holdsAtPc.1 ((fetchWith_begun OPCODE s).trans hfetch)
    obtain ⟨kind, detail, rfl, hrow⟩ := hran.exists_isRow (begun_status hl) hi ht
    exact ⟨kind, detail, raise_begun_eq_faultedWith s kind detail, (isRow_record_begun hl).1 hrow⟩
  · exact ⟨kind, detail, raise_begun_eq_faultedWith s kind detail, isRow_of_fetch_error hfetch⟩

/-- Settles O14: the fetch and the execute stage raise rows only (`exists_isRow_of_step_faulted`), a row has no opcode
for site Fetch alone, and a Faulted state is final. -/
theorem raisingChangesStatusAndRecordOnly : Obligations.RaisingChangesStatusAndRecordOnly := by
  unfold Obligations.RaisingChangesStatusAndRecordOnly
  intro s t hl h ht
  obtain ⟨kind, detail, rfl, hrow⟩ := exists_isRow_of_step_faulted hl h ht
  exact ⟨_, rfl, rfl, rfl, hrow.opcode_eq_none_iff, isRow_faultedWith.2 hrow, outcome_of_faulted rfl,
    runFuelWith_of_final OPCODE rfl⟩

end Sys2Proof.Machine
end

section
/-! PROOFS. The invariant of CORE: it holds after reset, `load` and every step keep it, so every reachable state meets it. -/

namespace Sys2Proof.Machine

/-! ### Where an instruction leaves `pc` -/

/-- An instruction that stands at `pc` lies below 256 as a whole, so `pc` past it is at most 256 (R23, R94). -/
theorem State.holdsAtPc.pc_add_width_le {s : State} {i : Instr} (h : s.holdsAtPc i) : s.pc + i.width ≤ 256 := by
  have hlen : (encode i).length = i.width := length_encodeWith OPCODE i
  have hpos : 0 < i.width := hlen ▸ Nat.succ_pos _
  have hlast : i.width - 1 < (encode i).length := by omega
  have hlt : s.pc + (i.width - 1) < 256 := lt_of_byteAt?_eq_some (h _ _ (List.getElem?_eq_getElem hlast))
  omega

theorem regAt_le (s : State) (ra : Byte) : regAt s ra ≤ 255 := by
  unfold regAt
  split
  · exact Nat.le_of_lt_succ (s.reg _).isLt
  · exact Nat.zero_le 255

/-- Every target of a jump, CALL or RET is a byte, so an address in memory (R109). -/
theorem transferOf_le {i : Instr} {s : State} {n : Nat} (h : transferOf i s = some n) : n ≤ 255 := by
  cases i with
  | jmp | call =>
    cases h
    exact regAt_le _ _
  | jeq | jne =>
    obtain ⟨-, -, rfl⟩ | ⟨-, -, rfl⟩ := ite_eq_iff.1 h
    exact regAt_le _ _
  | ret =>
    cases h
    exact Nat.le_of_lt_succ s.loadTop.isLt
  | _ => cases h

/-- An instruction at `pc` that does not raise leaves `pc` at most 256 (R23). -/
theorem Ran.pc_le {i : Instr} {s t : State} (h : Ran i s t) (hi : s.holdsAtPc i) (ht : t.status ≠ .faulted) :
    t.pc ≤ 256 := by
  rw [h.pc_eq ht]
  cases htr : transferOf i s with
  | none => exact hi.pc_add_width_le
  | some n => exact (transferOf_le htr).trans (by decide)

/-! ### What each part of a step keeps -/

/-- A store keeps memory in canonical form, and nothing else touches it. -/
theorem Ran.mem_wf {i : Instr} {s t : State} (h : Ran i s t) (hs : s.mem.wf) : t.mem.wf := by
  rcases h.mem_eq_or_write with hkept | ⟨-, v, hwrite⟩
  · exact hkept ▸ hs
  · exact hwrite ▸ Memory.write_wf hs s.pushAddr v

/-- CMP makes one flag true and no other instruction writes the flags (R28, R30). -/
theorem Ran.flags_count_le {i : Instr} {s t : State} (h : Ran i s t) (hs : s.flags.count ≤ 1) : t.flags.count ≤ 1 := by
  by_cases hi : ∃ a b, i = .cmp a b
  · obtain ⟨a, b, rfl⟩ := hi
    cases h with
    | cmp r q => exact (Flags.count_compare _ _).le
    | badIndex => exact hs
  · rw [h.flags_eq fun a b hab => hi ⟨a, b, hab⟩]
    exact hs

/-- An instruction that does not raise leaves the record alone (R131). -/
theorem Ran.fault_eq {i : Instr} {s t : State} (h : Ran i s t) (ht : t.status ≠ .faulted) : t.fault = s.fault := by
  rcases h.fault_eq_or_raise with hkept | ⟨kind, detail, -, rfl⟩
  · exact hkept
  · exact absurd rfl ht

/-- Outside status Faulted the invariant says that the record is empty, and nothing of its rows (R36). -/
theorem inv_of_fault_eq_none {s : State} (hmem : s.mem.wf) (hpc : s.pc ≤ 256) (hflags : s.flags.count ≤ 1)
    (hfault : s.fault = none) (hstatus : s.status ≠ .faulted) : s.Inv where
  memCanonical := hmem
  pcBound := hpc
  flagsAtMostOne := hflags
  recordIffFaulted := by simp [hfault, hstatus]
  recordIsRow := by simp [hfault]

/-- A state stopped by a fault meets the invariant if it did before and the record is a row (R131). -/
theorem State.Inv.faultedWith {s : State} {r : FaultRecord} (h : s.Inv) (hr : r.isRow s) : (s.faultedWith r).Inv where
  memCanonical := h.memCanonical
  pcBound := h.pcBound
  flagsAtMostOne := h.flagsAtMostOne
  recordIffFaulted := iff_of_true rfl rfl
  recordIsRow := by
    rintro q ⟨⟩
    exact isRow_faultedWith.2 hr

/-- A live state has no record (R36). -/
theorem State.Inv.fault_eq_none_of_live {s : State} (h : s.Inv) (hl : s.live) : s.fault = none :=
  h.fault_eq_none (State.safe_iff.1 hl.safe_eq_true)

/-- The invariant does not tell Ready from Running (R85). -/
theorem State.Inv.begun {s : State} (h : s.Inv) (hl : s.live) : s.begun.Inv := by
  have hfault : s.fault = none := h.fault_eq_none_of_live hl
  rw [begun_of_live hl]
  exact inv_of_fault_eq_none h.memCanonical h.pcBound h.flagsAtMostOne hfault nofun

/-- An instruction at `pc` that does not raise keeps the invariant. -/
theorem Ran.inv {i : Instr} {s t : State} (h : Ran i s t) (hs : s.Inv) (hrunning : s.status = .running)
    (hi : s.holdsAtPc i) (ht : t.status ≠ .faulted) : t.Inv := by
  have hfault : t.fault = none := (h.fault_eq ht).trans (hs.fault_eq_none_of_live (.inr hrunning))
  exact inv_of_fault_eq_none (h.mem_wf hs.memCanonical) (h.pc_le hi ht) (h.flags_count_le hs.flagsAtMostOne) hfault ht

/-! ### Steps, `load` and reset -/

/-- A step of a live core either raises a row of the fault table or has run an instruction that stands at `pc`. -/
theorem inv_of_step_of_live {s t : State} (hs : s.Inv) (hl : s.live) (h : step s = .next t) : t.Inv := by
  by_cases ht : t.status = .faulted
  · obtain ⟨kind, detail, rfl, hrow⟩ := exists_isRow_of_step_faulted hl h ht
    exact hs.faultedWith hrow
  · rcases step_ran hl h with ⟨i, hfetch, hran⟩ | ⟨kind, detail, -, rfl⟩
    · have hi : s.begun.holdsAtPc i := fetchWith_eq_ok_iff_holdsAtPc.1 ((fetchWith_begun OPCODE s).trans hfetch)
      exact hran.inv (hs.begun hl) (begun_status hl) hi ht
    · exact absurd rfl ht

/-- A state that is not live is in a final status (R35). -/
theorem isFinal_of_not_live {s : State} (h : ¬ s.live) : s.status.isFinal = true := by
  cases hs : s.status with
  | ready => exact absurd (.inl hs) h
  | running => exact absurd (.inr hs) h
  | halted | faulted => rfl

/-- Settles O4: a live state is `inv_of_step_of_live`, and a step after Halted or Faulted answers the same state. -/
theorem everyStepKeepsTheInvariant : Obligations.EveryStepKeepsTheInvariant := by
  unfold Obligations.EveryStepKeepsTheInvariant
  intro s t hs h
  by_cases hl : s.live
  · exact inv_of_step_of_live hs hl h
  · have hsame : step s = .next s := stepWith_of_final OPCODE (isFinal_of_not_live hl)
    obtain rfl : s = t := Host.Outcome.next.inj (hsame.symm.trans h)
    exact hs

/-- Settles O5: `load` succeeds in Ready alone, where there is no record, and writes memory by canonical writes. -/
theorem loadKeepsTheInvariant : Obligations.LoadKeepsTheInvariant := by
  unfold Obligations.LoadKeepsTheInvariant
  intro s t bytes hs h
  obtain ⟨hready, -, rfl⟩ := load_eq_ok.1 h
  exact inv_of_fault_eq_none (Memory.writeFrom_wf hs.memCanonical 0 bytes) hs.pcBound hs.flagsAtMostOne
    (hs.fault_eq_none_of_live (.inl hready)) (by simp [hready])

theorem inv_resetWith {p : ResetParams} (h : p.eInit.toNat + p.gInit.toNat + p.lInit.toNat ≤ 1) :
    (State.resetWith p).Inv :=
  inv_of_fault_eq_none (resetWith_mem_wf p) (Nat.zero_le 256) h rfl nofun

theorem inv_reset : State.reset.Inv := inv_resetWith (p := resetParams) (by decide)

/-- Settles O3: a reset state is Ready, without a record and at `pc` 0, and its memory is canonical; its flags are those
of the parameters. -/
theorem resetMeetsTheInvariant : Obligations.ResetMeetsTheInvariant := by
  unfold Obligations.ResetMeetsTheInvariant
  exact ⟨inv_reset, fun _ => inv_resetWith⟩

/-- Every state a core comes to from reset meets the invariant (R146). -/
theorem Reachable.inv {s : State} (h : Reachable s) : s.Inv :=
  reachable_of_kept inv_reset loadKeepsTheInvariant everyStepKeepsTheInvariant h

/-- Settles O6: a Faulted state that meets the invariant has a record, which is a row; each kind has its own code. -/
theorem everyReachableFaultIsATableRow : Obligations.EveryReachableFaultIsATableRow := by
  unfold Obligations.EveryReachableFaultIsATableRow
  refine ⟨fun s h hs => ?_, fun k => ?_⟩
  · obtain ⟨r, hr⟩ := Option.isSome_iff_exists.1 (h.inv.recordIffFaulted.2 hs)
    exact ⟨r, hr, h.inv.recordIsRow r hr⟩
  · cases k <;> simp [FaultKind.code]

end Sys2Proof.Machine
end

section
/-! PROOFS. The values after reset (R144), and the host's operations where they are refused or change nothing (R86, R134). -/

namespace Sys2Proof.Machine

/-- A filled memory reads the same byte at every cell (R42). -/
@[simp] theorem Memory.read_filled (v : Byte) (a : Addr) : (Memory.filled v).read a = v := by
  by_cases hv : v = Memory.unlisted
  · rw [Memory.filled, if_pos hv]
    exact hv.symm
  · have hcell : (a.toNat, v) ∈ Memory.filled v := by
      rw [Memory.filled, if_neg hv]
      exact List.mem_map_of_mem (List.mem_range.2 a.isLt)
    obtain ⟨hsorted, -⟩ := Memory.filled_wf v
    exact Memory.lookup_of_mem hsorted hcell

/-- Reset writes `REG_INIT` to every register and then `SP_INIT` to SP (R40, R41). -/
theorem reg_resetWith (p : ResetParams) (r : RegIx) :
    (State.resetWith p).reg r = if r = spIx then p.spInit else p.regInit := by
  have hset := State.reg_setReg { State.resetWith p with x := Vector.replicate 8 p.regInit } spIx r p.spInit
  have hinit : State.reg { State.resetWith p with x := Vector.replicate 8 p.regInit } r = p.regInit :=
    Vector.getElem_replicate r.isLt
  rwa [hinit] at hset

/-- Settles O2: each register is that of `reg_resetWith`, each cell one of a filled memory; the other fields are written
out in the reset state. -/
theorem resetTakesAnyParameters : Obligations.ResetTakesAnyParameters := by
  unfold Obligations.ResetTakesAnyParameters
  exact fun p => ⟨reg_resetWith p, Memory.read_filled p.memInit, rfl, rfl, rfl, rfl, rfl⟩

/-- Settles O1: the reset under the default parameters. -/
theorem resetLeavesTheTableOfValues : Obligations.ResetLeavesTheTableOfValues := by
  unfold Obligations.ResetLeavesTheTableOfValues
  obtain ⟨hreg, hcell, hflags, hpc, hstatus, hfault, hout⟩ := resetTakesAnyParameters resetParams
  exact ⟨hpc, hreg, hcell, hflags, hstatus, hfault, hout⟩

/-- Settles O48: canonical memories are strictly rising lists of the cells that do not read as an unlisted one. -/
theorem memoriesThatReadAlikeAreEqual : Obligations.MemoriesThatReadAlikeAreEqual := by
  unfold Obligations.MemoriesThatReadAlikeAreEqual
  exact fun _ _ => Memory.eq_of_read_eq

/-- Settles O15: in a final status neither a step nor a run nor `load` does anything, and the outcome is the status with
its record. -/
theorem finalStatusStays : Obligations.FinalStatusStays := by
  unfold Obligations.FinalStatusStays
  intro s hs
  have hready : s.status ≠ .ready := by
    rintro h
    rw [h] at hs
    cases hs
  refine ⟨stepWith_of_final OPCODE hs, load_of_not_ready hready, runFuelWith_of_final OPCODE hs, outcome_of_halted,
    fun r hfaulted hr => ?_⟩
  rw [outcome_of_faulted hfaulted, hr, Option.map_some]

/-- Settles O50: in Ready `load` looks at the length before it writes (R82). -/
theorem loadRefusesALongProgram : Obligations.LoadRefusesALongProgram := by
  unfold Obligations.LoadRefusesALongProgram
  intro s bytes hs hlen
  rw [State.load, if_neg (not_not.2 hs), if_pos hlen]

end Sys2Proof.Machine
end

section
/-! PROOFS. A step runs what it decodes, and raises where there is nothing to decode (R91 to R94). -/

namespace Sys2Proof.Machine

/-! ### What decodes -/

/-- Settles O19: an opcode of a distinct map finds its own row, whose format reads as many operand bytes as the
instruction has. -/
theorem decodeOfEncodeIsTheInstruction : Obligations.DecodeOfEncodeIsTheInstruction := by
  unfold Obligations.DecodeOfEncodeIsTheInstruction
  exact ⟨opcode_distinct, fun _ => decodeWith_encodeWith⟩

/-- The numbers whose byte is an opcode are the opcodes' numbers, so a distinct map has 13 of them (R69). -/
theorem length_legal_opcodes {op : Opcodes} (hd : op.Distinct) :
    ((List.range 256).filter (fun n => BitVec.ofNat 8 n ∈ op.all)).length = 13 := by
  have hperm : ((List.range 256).filter (fun n => BitVec.ofNat 8 n ∈ op.all)).Perm (op.all.map BitVec.toNat) := by
    refine (List.perm_ext_iff_of_nodup (List.nodup_range.filter _) (hd.map BitVec.toNat_injective)).2 fun n => ?_
    rw [List.mem_filter, List.mem_range, decide_eq_true_iff, List.mem_map]
    constructor
    · rintro ⟨hn, hmem⟩
      exact ⟨_, hmem, Nat.mod_eq_of_lt hn⟩
    · rintro ⟨b, hb, rfl⟩
      exact ⟨b.isLt, by simpa using hb⟩
  exact hperm.length_eq.trans (by rw [List.length_map]; rfl)

/-- Of the 256 byte values all but the 13 opcodes are illegal (R73). -/
theorem length_illegal_opcodes {op : Opcodes} (hd : op.Distinct) :
    ((List.range 256).filter (fun n => BitVec.ofNat 8 n ∉ op.all)).length = 243 := by
  have hlegal := length_legal_opcodes hd
  have hall := (List.range 256).length_eq_length_filter_add (fun n => decide (BitVec.ofNat 8 n ∈ op.all))
  simp only [List.length_range, ← decide_not] at hall
  omega
/-- Settles O23: the decoder evaluates each word; the illegal bytes are counted by the legal ones. -/
theorem writtenOutWordsDecode : Obligations.WrittenOutWordsDecode := by
  unfold Obligations.WrittenOutWordsDecode
  exact ⟨rfl, rfl, rfl, rfl, rfl, rfl, rfl, rfl, rfl, rfl, rfl, rfl, rfl, rfl, rfl, length_illegal_opcodes opcode_distinct⟩

/-- Settles O8: bytes at `pc` that decode are a fetch of their instruction, which a live state runs as it begins. -/
theorem stepRunsTheDecodedInstruction : Obligations.StepRunsTheDecodedInstruction := by
  unfold Obligations.StepRunsTheDecodedInstruction
  refine ⟨fun s i rest hl h => ?_, fun s => begun_of_live⟩
  exact stepWith_of_fetch_ok hl (fetchWith_ok.2 ⟨rest, h⟩)

/-! ### A word placed at `pc` -/

/-- The bytes are placed where all of them fit (log 21). -/
theorem placeAt_add_le (s : State) {n : Nat} (h : n ≤ memSize) : s.placeAt n + n ≤ memSize := by
  unfold State.placeAt
  split
  · assumption
  · rwa [Nat.zero_add]

/-- A state with bytes placed at `pc` is live: a final status is replaced by Running (log 21). -/
theorem live_withBytesAtPc (s : State) (bytes : List Byte) : (s.withBytesAtPc bytes).live := by
  by_cases hs : s.status.isFinal = true
  · exact .inr (if_pos hs)
  · have hlive : s.live := by
      by_contra hl
      exact hs (isFinal_of_not_live hl)
    have hstatus : (s.withBytesAtPc bytes).status = s.status := if_neg hs
    rwa [State.live, hstatus]

/-- An instruction that placed bytes decode to stands at `pc`. -/
theorem holdsAtPc_withBytesAtPc (s : State) {bytes rest : List Byte} {i : Instr} (hlen : bytes.length ≤ memSize)
    (h : decode bytes = .ok (i, rest)) : (s.withBytesAtPc bytes).holdsAtPc i := by
  intro k b hk
  have hbytes : bytes[k]? = some b := by
    have hk' : k < (encode i).length := (List.getElem?_eq_some_iff.1 hk).1
    rw [eq_encodeWith_of_decodeWith h]
    exact (List.getElem?_append_left hk').trans hk
  exact s.mem.byteAt?_writeFrom hbytes (placeAt_add_le s hlen)

/-- A table word decodes where its three bytes do. -/
theorem decode_of_decodeTableWord {nbits w : Nat} {i : Instr} (h : decodeTableWord nbits w = some i) :
    ∃ rest, decode (tableBytes nbits w) = .ok (i, rest) := by
  unfold decodeTableWord at h
  split at h
  · next j rest hdecode =>
    cases h
    exact ⟨rest, hdecode⟩
  · cases h

/-- Settles O24: the instruction of the word stands at `pc` of a live state, and placing it writes no register, flag or
output. -/
theorem placedTableWordRuns : Obligations.PlacedTableWordRuns := by
  unfold Obligations.PlacedTableWordRuns
  intro s nbits w i h
  obtain ⟨rest, hdecode⟩ := decode_of_decodeTableWord h
  have hlen : (tableBytes nbits w).length ≤ memSize := show 3 ≤ 256 by decide
  have hi := holdsAtPc_withBytesAtPc s hlen hdecode
  exact ⟨stepWith_of_fetch_ok (live_withBytesAtPc s _) (fetchWith_eq_ok_iff_holdsAtPc.2 hi), rfl, rfl, rfl⟩

/-! ### Faults of the fetch -/

/-- At `pc` above 255 there is no opcode byte to fetch (R91). -/
theorem fetchWith_past (op : Opcodes) {s : State} (h : 255 < s.pc) :
    fetchWith op s = .error (.outOfBounds .fetch, s.pc) :=
  fetchWith_error (e := .noOpcode) (by rw [bytesFrom_past s.mem 3 h, decodeWith])

/-- A fetch of an opcode whose last byte lies above 255 raises for the operand (R94). -/
theorem fetchWith_operand_past {op : Opcodes} {s : State} {b : Byte} {w : Nat} (hpc : s.mem.byteAt? s.pc = some b)
    (hw : widthOf? op b = some w) (hpast : 255 < s.pc + w - 1) :
    fetchWith op s = .error (.outOfBounds .operandFetch, 256) := by
  apply fetchWith_error (e := .truncated b)
  rw [bytesFrom_cons s.mem 2 hpc]
  refine decodeWith_eq_truncated.2 ⟨w, hw, ?_⟩
  have hlt : s.pc < 256 := lt_of_byteAt?_eq_some hpc
  rw [length_bytesFrom]
  simp only [memSize]
  omega

/-- Settles O11: the fetch raises, and there is no byte at `pc`. -/
theorem fetchPastMemoryRaises : Obligations.FetchPastMemoryRaises := by
  unfold Obligations.FetchPastMemoryRaises
  intro s hl hpc
  rw [step, stepWith_of_fetch_error hl (fetchWith_past OPCODE hpc), s.mem.byteAt?_of_ge hpc]

/-- Settles O12: the fetch raises, after it has read the opcode. -/
theorem operandPastMemoryRaises : Obligations.OperandPastMemoryRaises := by
  unfold Obligations.OperandPastMemoryRaises
  intro s b w hl hpc hw hpast
  rw [step, stepWith_of_fetch_error hl (fetchWith_operand_past hpc hw hpast), hpc]

end Sys2Proof.Machine
end

section
/-! PROOFS. Where the execute stage raises, and with what record (R95, R116, R121, R128). -/

namespace Sys2Proof.Machine

/-- Raising a fault stops the state with the record of that fault, and changes nothing else (R131). -/
theorem trap_eq (kind : FaultKind) (detail : Nat) (s : State) :
    trap kind detail s = .next (s.faultedWith ⟨kind, s.pc, s.mem.byteAt? s.pc, detail⟩) := rfl

/-- Every instruction answers a next state (R97). -/
theorem exists_exec_eq_next (i : Instr) (s : State) : ∃ t, exec i s = .next t := by
  obtain ⟨t, -, ht, -⟩ := exec_setGL i s s.flags.g s.flags.l
  exact ⟨t, ht⟩

/-- An instruction with an invalid index does nothing but raise for the first one: in every other case its operands are
valid (R95, R130). -/
theorem Ran.eq_raise_of_badIndex? {i : Instr} {s t : State} {b : Byte} (h : Ran i s t) (hb : i.badIndex? = some b) :
    t = s.raise (.outOfBounds .register) b.toNat := by
  have valid (hwf : i.wellFormed = true) : t = s.raise (.outOfBounds .register) b.toNat := by
    rw [wellFormed_iff_badIndex?, hb] at hwf
    cases hwf
  cases h with
  | badIndex _ _ c hc =>
    obtain rfl : c = b := Option.some.inj (hc.symm.trans hb)
    rfl
  | hlt | ret | retUnderflow => exact valid rfl
  | add | mul | cmp => exact valid (wellFormed_of_two_registers rfl)
  | _ => exact valid (wellFormed_of_one_register rfl)

/-- Settles O13: `exec` answers a next state, and with an invalid index that is the one raised for the first of them. -/
theorem badRegisterIndexRaises : Obligations.BadRegisterIndexRaises := by
  unfold Obligations.BadRegisterIndexRaises
  intro i s b hb
  obtain ⟨t, ht⟩ := exists_exec_eq_next i s
  rw [ht, (exec_ran ht).eq_raise_of_badIndex? hb]
  rfl

/-- Settles O35: the check of SP is the first of PUSH and of CALL. -/
theorem pushAndCallAtZeroOverflow : Obligations.PushAndCallAtZeroOverflow := by
  unfold Obligations.PushAndCallAtZeroOverflow
  intro r s hsp
  rw [exec_push, exec_call, if_pos hsp, if_pos hsp, hsp]
  exact ⟨trap_eq _ 0 s, trap_eq _ 0 s⟩

/-- POP raises where the SP that its load leaves is 255 (R116, R120). -/
theorem exec_pop_of_sp_eq {r : RegIx} {s : State} (h : (s.loadInto r).sp = 255) :
    exec (.pop (regByte r)) s = .next (s.faultedWith ⟨.stackUnderflow, s.pc, s.mem.byteAt? s.pc, 255⟩) := by
  rw [exec_pop, h, if_pos (by decide)]
  exact trap_eq _ 255 s

/-- Settles O36: the load of POP leaves SP, or makes it the popped byte for R7; RET increments SP itself. -/
theorem popAndReturnPast255Underflow : Obligations.PopAndReturnPast255Underflow := by
  unfold Obligations.PopAndReturnPast255Underflow
  refine ⟨fun r s hr hsp => exec_pop_of_sp_eq ?_, fun s hbyte => exec_pop_of_sp_eq ?_, fun s hsp => ?_⟩
  · rw [sp_loadInto, if_neg hr, hsp]
  · rw [sp_loadInto, if_pos rfl, hbyte]
  · rw [exec_ret, hsp, if_pos (by decide)]
    exact trap_eq _ 255 s

/-- Settles O37: the return address of a CALL at 254 is 256, which fits no byte. -/
theorem callAt254Raises : Obligations.CallAt254Raises := by
  unfold Obligations.CallAt254Raises
  intro r s hsp hpc
  have haddr : s.returnAddress = 256 := by rw [State.returnAddress, hpc]
  rw [exec_call, if_neg hsp, haddr, if_pos (by decide), trap_eq, hpc]

/-- With valid operands only the stack instructions raise (R125). -/
theorem Ran.stack_of_faulted {i : Instr} {s t : State} (h : Ran i s t) (hs : s.status ≠ .faulted)
    (ht : t.status = .faulted) (hwf : i.wellFormed = true) :
    i = .ret ∨ ∃ r : RegIx, i = .push (regByte r) ∨ i = .pop (regByte r) ∨ i = .call (regByte r) := by
  cases h with
  | pushOverflow r => exact .inr ⟨r, .inl rfl⟩
  | popUnderflow r => exact .inr ⟨r, .inr (.inl rfl)⟩
  | callOverflow r | callAddress r => exact .inr ⟨r, .inr (.inr rfl)⟩
  | retUnderflow => exact .inl rfl
  | badIndex _ _ b hb =>
    rw [wellFormed_iff_badIndex?, hb] at hwf
    cases hwf
  | hlt => cases ht
  | jeq | jne => exact absurd ht (by split <;> exact hs)
  | _ => exact absurd ht hs

/-- Settles O43: what has not raised leaves the record and the status of `Ran.status_eq`. -/
theorem onlyStackInstructionsRaiseInExecute : Obligations.OnlyStackInstructionsRaiseInExecute := by
  unfold Obligations.OnlyStackInstructionsRaiseInExecute
  intro i s t hs h
  refine ⟨fun ht => ⟨(exec_ran h).fault_eq ht, ?_⟩, (exec_ran h).stack_of_faulted (by simp [hs])⟩
  rw [(exec_ran h).status_eq ht, hs]

end Sys2Proof.Machine
end

section
/-! PROOFS. CALL and POP R7 where they complete, PUSH then POP, and a pushed byte that is fetched next (44_stack.md, 45_call_return.md). -/

namespace Sys2Proof.Machine

/-- Settles O32: the load makes the popped byte the SP, and its increment does not wrap; every other register is in the
frame of the two writes to SP. -/
theorem popIntoStackPointerAddsOne : Obligations.PopIntoStackPointerAddsOne := by
  unfold Obligations.PopIntoStackPointerAddsOne
  intro s hbyte
  have hload : (s.loadInto spIx).sp = s.readByte s.sp := by rw [sp_loadInto, if_pos rfl]
  have hinc : (s.loadInto spIx).incSP.sp.toNat = (s.readByte s.sp).toNat + 1 := by
    rw [State.sp_incSP, hload, toNat_add_one_of_ne hbyte]
  have hframe : SameRegsBut [spIx] s (s.loadInto spIx).incSP := fun q hq =>
    (sameRegsBut_setReg spIx _ (s.loadInto spIx) q hq).trans (sameRegsBut_setReg spIx _ s q hq)
  exact ⟨_, exec_pop_of_sp_ne (hload ▸ hbyte), hinc, hframe, fun _ => rfl, rfl, rfl, rfl, rfl, rfl⟩

/-- Settles O33: CALL pushes its return address, which fits a byte, and sets `pc` to the register as that push leaves it;
the frames are those of the decrement of SP and of the write of one cell. -/
theorem callSavesTheReturnAddress : Obligations.CallSavesTheReturnAddress := by
  unfold Obligations.CallSavesTheReturnAddress
  intro r s hsp hpc
  have hdec : s.pushReturn.sp.toNat = s.sp.toNat - 1 := by rw [sp_pushReturn, toNat_sub_one_of_ne hsp]
  have hstored : (s.pushReturn.readByte s.pushAddr).toNat = s.pc + 2 := by
    rw [readByte_pushReturn, if_pos rfl]
    exact Nat.mod_eq_of_lt (Nat.lt_succ_of_le hpc)
  have htarget : s.pushReturn.target r = if r = spIx then s.sp.toNat - 1 else (s.reg r).toNat := by
    rw [State.target, reg_pushReturn, apply_ite BitVec.toNat, toNat_sub_one_of_ne hsp]
  exact ⟨_, exec_call_of_sp_ne r hsp hpc, hdec, rfl, hstored, sameMemoryBut_of_mem_write rfl, htarget,
    sameRegsBut_setReg spIx _ s, rfl, rfl, rfl, rfl⟩

/-- Settles O45: the SP that PUSH leaves is not 255, so POP completes. It loads the byte just stored, and its increment of
SP undoes PUSH's decrement. -/
theorem pushThenPopRoundTrips : Obligations.PushThenPopRoundTrips := by
  unfold Obligations.PushThenPopRoundTrips
  intro r q s hr hq hsp
  obtain ⟨t, hpush, htsp, haddr, hstored, -, htregs, -⟩ := pushStoresBelowTheStackPointer r s hsp
  have htsp' : t.sp ≠ 255 := by bv_omega
  obtain ⟨u, hpop, hloaded, husp, huregs, -⟩ := popLoadsTheTopOfStack q t hq htsp'
  have hval : u.reg q = s.reg r := by rw [hloaded, ← haddr, hstored, if_neg hr]
  have hback : u.sp = s.sp := by bv_omega
  refine ⟨t, u, hpush, hpop, hval, hback, fun x hx => ?_⟩
  by_cases hxsp : x = spIx
  · rw [hxsp]
    exact hback
  · calc u.reg x = t.reg x := huregs x (by simp [hxsp, List.mem_singleton.not.1 hx])
      _ = s.reg x := htregs x (mt List.mem_singleton.1 hxsp)

/-- HLT stands where its opcode does: it has no operand byte (R63). -/
theorem holdsAtPc_hlt {s : State} (h : s.mem.byteAt? s.pc = some OPCODE.hlt) : s.holdsAtPc .hlt := by
  intro k b hk
  cases k with
  | zero =>
    cases hk
    exact h
  | succ k => cases hk

/-- Settles O47: the byte at the `pc` that PUSH leaves is the one it has stored, and HLT is that byte alone. -/
theorem pushedByteIsFetchedNext : Obligations.PushedByteIsFetchedNext := by
  unfold Obligations.PushedByteIsFetchedNext
  intro r s hs hsp haddr hr hreg
  obtain ⟨t, hpush, -, -, hstored, -, -, hpc, -, hstatus, -, -⟩ := pushStoresBelowTheStackPointer r s hsp
  rw [hs] at hstatus
  have hread : t.readByte s.pushAddr = OPCODE.hlt := by rw [hstored, if_neg hr, hreg]
  have hbyte : t.mem.byteAt? t.pc = some OPCODE.hlt := by
    rw [hpc, ← haddr, Memory.byteAt?_toNat]
    exact congrArg some hread
  have hstep : step t = exec .hlt t.begun :=
    stepWith_of_fetch_ok (.inr hstatus) (fetchWith_eq_ok_iff_holdsAtPc.2 (holdsAtPc_hlt hbyte))
  refine ⟨t, hpush, ?_⟩
  rw [hstep, begun_of_running hstatus, haltAdvancesThenStops, hpc]

end Sys2Proof.Machine
end

section
/-! PROOFS. The frame of the registers (R18). -/

namespace Sys2Proof.Machine

theorem SameRegsBut.refl {rs : List RegIx} {s : State} : SameRegsBut rs s s := fun _ _ => rfl

/-- A write of a register that the frame lists keeps the frame (R12). -/
theorem SameRegsBut.setReg {rs : List RegIx} {s t : State} {r : RegIx} (h : SameRegsBut rs s t) (hr : r ∈ rs)
    (v : Byte) : SameRegsBut rs s (t.setReg r v) := fun q hq =>
  (t.reg_setReg_ne v (ne_of_mem_of_not_mem hr hq).symm).trans (h q hq)

/-- An operand byte that names a register puts it among the registers written (R18, R70). -/
theorem mem_toList_regIndex?_regByte (r : RegIx) : r ∈ (regIndex? (regByte r)).toList := by
  simp

/-- An instruction writes its destination register, the stack instructions SP, and nothing else; raising writes none. -/
theorem Ran.sameRegsBut {i : Instr} {s t : State} (h : Ran i s t) : SameRegsBut (writesOf i) s t := by
  cases h with
  | ldi r | add r | mul r => exact SameRegsBut.refl.setReg (mem_toList_regIndex?_regByte r) _
  | push | call | ret => exact SameRegsBut.refl.setReg List.mem_cons_self _
  | pop r =>
    have hload : SameRegsBut (writesOf (.pop (regByte r))) s (s.loadInto r) :=
      SameRegsBut.refl.setReg (List.mem_cons_of_mem spIx (mem_toList_regIndex?_regByte r)) s.loadTop
    exact hload.setReg List.mem_cons_self _
  | jeq | jne => split <;> exact SameRegsBut.refl
  | _ => exact SameRegsBut.refl

/-- Settles O40: `Ran.sameRegsBut` over all that an instruction can do. -/
theorem registersChangeOnlyWhereListed : Obligations.RegistersChangeOnlyWhereListed := by
  unfold Obligations.RegistersChangeOnlyWhereListed
  exact fun _ _ _ h => (exec_ran h).sameRegsBut

end Sys2Proof.Machine
end
